-- ==== Sys2Proof/Word.lean ====
section
/-!
DEFINITION. The bit-vector types of the engine: register words, bytes, blocks, half-blocks, subkeys and key schedules.
-/

namespace Sys2Proof

/-- A register word, 32 bits (R9). -/
abbrev Word := BitVec 32

/-- One byte of the buffer memory (R32). -/
abbrev Byte := BitVec 8

/-- A cipher block or a DES key, `Bits 64` (R6). DES position 1 is bit 63 (R8, R10). -/
abbrev Block := BitVec 64

/-- One half L or R of a block, `Bits 32` (R6). -/
abbrev Half := BitVec 32

/-- One half C or D of the permuted key, `Bits 28` (R6). -/
abbrev KeyHalf := BitVec 28

/-- One round subkey, `Bits 48` (R6). -/
abbrev Subkey := BitVec 48

/-- A key schedule K[1..16] (R26). The subkey K[r] stands at index r - 1; the source's slot 0 does not exist. -/
abbrev Schedule := Vector Subkey 16

end Sys2Proof
end

