-- ==== Sys2Proof/Syntax.lean ====
section
/-!
DEFINITION. The commands of the engine: one constructor per row of the opcode table (R53).
-/

namespace Sys2Proof

/-- The seven commands of R53. `slot` is the two-bit SLOT field as it stands in the command word (R52, R56). -/
inductive Instr where
  /-- KEYLOAD (R106): validate and load a triple key. -/
  | keyload
  /-- DES.ENC (R95): encrypt BLOCK with KS(slot+1). -/
  | desEnc (slot : BitVec 2)
  /-- DES.DEC (R96): decrypt BLOCK with KS(slot+1). -/
  | desDec (slot : BitVec 2)
  /-- TDES.EBLK (R107): Triple-DES encrypt BLOCK. -/
  | tdesEblk
  /-- TDES.DBLK (R108): Triple-DES decrypt BLOCK. -/
  | tdesDblk
  /-- TDES.ENC (R109): pad and Triple-DES encrypt a buffer. -/
  | tdesEnc
  /-- TDES.DEC (R110): Triple-DES decrypt a buffer and remove the padding. -/
  | tdesDec
  deriving DecidableEq, Repr

end Sys2Proof
end

