-- ==== Sys2Proof/WellFormed.lean ====
section
/-!
DEFINITION. Which commands a command word can stand for: the table's one constraint, SLOT <= 2 (R54).
-/

namespace Sys2Proof

/-- A SLOT field that names a key schedule: 0 = KS1, 1 = KS2, 2 = KS3 (R52). SLOT = 3 is ILLEGAL (R54). -/
def slotNamesSchedule (slot : BitVec 2) : Bool := decide (slot.toNat ≤ 2)

/-- A command that some command word decodes to (R54). -/
def Instr.wellFormed : Instr → Bool
  | .keyload => true
  | .desEnc slot => slotNamesSchedule slot
  | .desDec slot => slotNamesSchedule slot
  | .tdesEblk => true
  | .tdesDblk => true
  | .tdesEnc => true
  | .tdesDec => true

end Sys2Proof
end

