-- ==== Sys2Proof/Decode.lean ====
section
/-!
DEFINITION. The decoder of command words, total on all 2^32 words (R54), and the encoder (R53, R60).
-/

namespace Sys2Proof

/-- Why a command word is ILLEGAL (R55). Every reason has the one effect ILLEGAL_COMMAND. -/
inductive IllegalWord where
  /-- A bit of RSV[31:6] is set (R52). -/
  | reservedBits
  /-- OP is 0 or 8 to 15 (R53). -/
  | reservedOp
  /-- SLOT = 3 with DES.ENC or DES.DEC (R54). -/
  | slotNamesNoSchedule
  /-- SLOT is not 0 with a command that takes no SLOT (R52). -/
  | slotNotZero
  deriving DecidableEq, Repr

/-- The field OP[3:0] of a command word (R52). -/
def opField (w : Word) : BitVec 4 := w.extractLsb' 0 4

/-- The field SLOT[5:4] of a command word (R52). -/
def slotField (w : Word) : BitVec 2 := w.extractLsb' 4 2

/-- The field RSV[31:6] of a command word (R52). -/
def rsvField (w : Word) : BitVec 26 := w.extractLsb' 6 26

/-- A command that takes no SLOT: the field must be 0 (R52, R54). -/
def decodeNoSlot (w : Word) (i : Instr) : Except IllegalWord Instr :=
  if slotField w = 0 then .ok i else .error .slotNotZero

/-- A command that takes a SLOT: the field must name one of the three schedules (R54). -/
def decodeWithSlot (w : Word) (i : BitVec 2 → Instr) : Except IllegalWord Instr :=
  if slotNamesSchedule (slotField w) then .ok (i (slotField w)) else .error .slotNamesNoSchedule

/-- The decode function of R54: every word is exactly one command, or ILLEGAL for a named reason. -/
def decode (w : Word) : Except IllegalWord Instr :=
  if rsvField w = 0 then
    match (opField w).toNat with
    | 1 => decodeNoSlot w .keyload
    | 2 => decodeWithSlot w .desEnc
    | 3 => decodeWithSlot w .desDec
    | 4 => decodeNoSlot w .tdesEblk
    | 5 => decodeNoSlot w .tdesDblk
    | 6 => decodeNoSlot w .tdesEnc
    | 7 => decodeNoSlot w .tdesDec
    | _ => .error .reservedOp
  else .error .reservedBits

/-- The command word whose SLOT field is `slot`, with OP given as a word (R52, R60). -/
def withSlot (op : Word) (slot : BitVec 2) : Word := op ||| (slot.setWidth 32 <<< 4)

/-- The command word of a command (R53, R60). -/
def encode : Instr → Word
  | .keyload => 0x00000001
  | .desEnc slot => withSlot 0x00000002 slot
  | .desDec slot => withSlot 0x00000003 slot
  | .tdesEblk => 0x00000004
  | .tdesDblk => 0x00000005
  | .tdesEnc => 0x00000006
  | .tdesDec => 0x00000007

/-- The instruction read from the bits `w` of an opcode-table row of `nbits` bits. A command is one 32-bit register
word with no byte order (R42, R52), so the row's bit numbers are the register's; bits at and above `nbits` are 0. -/
def decodeTableWord (nbits w : Nat) : Option Instr :=
  match decode (BitVec.ofNat 32 (w % 2 ^ nbits)) with
  | .ok i => some i
  | .error _ => none

/-! Each constructor's decoding, on words written out from R53 and R54. -/

theorem decode_word_keyload : decode 0x00000001 = .ok .keyload := by decide
theorem decode_word_desEnc_slot0 : decode 0x00000002 = .ok (.desEnc 0) := by decide
theorem decode_word_desEnc_slot1 : decode 0x00000012 = .ok (.desEnc 1) := by decide
theorem decode_word_desEnc_slot2 : decode 0x00000022 = .ok (.desEnc 2) := by decide
theorem decode_word_desDec_slot0 : decode 0x00000003 = .ok (.desDec 0) := by decide
theorem decode_word_desDec_slot1 : decode 0x00000013 = .ok (.desDec 1) := by decide
theorem decode_word_desDec_slot2 : decode 0x00000023 = .ok (.desDec 2) := by decide
theorem decode_word_tdesEblk : decode 0x00000004 = .ok .tdesEblk := by decide
theorem decode_word_tdesDblk : decode 0x00000005 = .ok .tdesDblk := by decide
theorem decode_word_tdesEnc : decode 0x00000006 = .ok .tdesEnc := by decide
theorem decode_word_tdesDec : decode 0x00000007 = .ok .tdesDec := by decide

end Sys2Proof
end

