-- ==== Sys2Proof/Machine/BitVectors.lean ====
section
/-!
DEFINITION. Bit-vector access and the permutation engine (40_bitvector_permutation): the numbered bits of a `Bits n`
value, permute on numbers (R65), and the source's byte-buffer routines getBit, putBit and permute (R61, R62, R64).
-/

namespace Sys2Proof.Machine

/-! ## `Bits n` values -/

/-- `v<i>`, position i of a `Bits n` value, 1-based, most significant first (R8, R10). Outside 1..n the answer is the
model's (DESIGN CHOICE, log entry 14): position 0 is 0, and a position past n reads position n. -/
def bitAt {n : Nat} (v : BitVec n) (i : Nat) : Bool := v.getLsbD (n - i)

/-- A number read from its bits, most significant first. -/
def numberOfBits (bs : List Bool) : Nat := bs.foldl (fun acc b => 2 * acc + b.toNat) 0

/-- permute(v, table, n) on numbers (R65): output position i is input position table[i]. -/
def permute {m : Nat} (table : List Nat) (n : Nat) (v : BitVec m) : BitVec n :=
  BitVec.ofNat n (numberOfBits (table.map (bitAt v)))

/-! ## Byte buffers -/

/-- getBit(buf, idx) (R61). Every call in the spec is in bounds (R63). Out of bounds, which the spec leaves undefined (93
I1), the answer is the model's (DESIGN CHOICE, log entry 14): position 0 reads position 1, as `idx - 1` is 0 there, and a
position past the buffer reads 0. -/
def getBit (buf : List Byte) (idx : Nat) : Bool :=
  (buf.getD ((idx - 1) / 8) 0).getLsbD (7 - (idx - 1) % 8)

/-- The byte `b` with its bit `k` set to `val` (the mask of R62). -/
def setByteBit (b : Byte) (k : Nat) (val : Bool) : Byte :=
  if val then b ||| ((1 : Byte) <<< k) else b &&& ~~~((1 : Byte) <<< k)

/-- putBit(buf, idx, val) (R62). Out of bounds (93 I1) the effect is the model's (DESIGN CHOICE, log entry 14): position 0
writes position 1, and a position past the buffer writes nothing. -/
def putBit (buf : List Byte) (idx : Nat) (val : Bool) : List Byte :=
  buf.modify ((idx - 1) / 8) (fun b => setByteBit b (7 - (idx - 1) % 8) val)

/-- The loop of R64: for each table entry in turn, starting at output position `i`. -/
def permuteLoop (input : List Byte) : List Nat → Nat → List Byte → List Byte
  | [], _, output => output
  | p :: rest, i, output => permuteLoop input rest (i + 1) (putBit output i (getBit input p))

/-- The last byte masked to the first `n mod 8` positions, left-justified (the end of R64). -/
def maskTail (n : Nat) (output : List Byte) : List Byte :=
  if n % 8 = 0 then output
  else output.modify ((n + 7) / 8 - 1) (fun b => b &&& ((0xFF : Byte) <<< (8 - n % 8)))

/-- permute(input, table, n) on byte buffers, as the source's routine does it (R64). -/
def permuteBuffer (input : List Byte) (table : List Nat) (n : Nat) : List Byte :=
  maskTail n (permuteLoop input table 1 (List.replicate ((n + 7) / 8) 0))

/-- A `Bits n` value stored in ceil(n/8) bytes, left-justified with a zero tail (R8, R65). -/
def toBuffer {n : Nat} (v : BitVec n) : List Byte :=
  (List.range ((n + 7) / 8)).map fun j =>
    BitVec.ofNat 8 ((v.toNat <<< (8 * ((n + 7) / 8) - n)) >>> (8 * ((n + 7) / 8 - 1 - j)))

/-! ## Blocks as bytes -/

/-- `bytes(v)` of a block: byte 0 first (R10, R41). -/
def bytesOfBlock (v : Block) : List Byte :=
  [v.extractLsb' 56 8, v.extractLsb' 48 8, v.extractLsb' 40 8, v.extractLsb' 32 8,
   v.extractLsb' 24 8, v.extractLsb' 16 8, v.extractLsb' 8 8, v.extractLsb' 0 8]

/-- `bits(bs)` of the first eight bytes of a list: byte 0 is positions 1..8 (R10, R41). -/
def blockOfBytes (bs : List Byte) : Block :=
  bs.getD 0 0 ++ bs.getD 1 0 ++ bs.getD 2 0 ++ bs.getD 3 0 ++
  bs.getD 4 0 ++ bs.getD 5 0 ++ bs.getD 6 0 ++ bs.getD 7 0

/-! ## The block permutations -/

/-- IP, the initial permutation (R67). -/
def tableIP : List Nat :=
  [58, 50, 42, 34, 26, 18, 10, 2,
   60, 52, 44, 36, 28, 20, 12, 4,
   62, 54, 46, 38, 30, 22, 14, 6,
   64, 56, 48, 40, 32, 24, 16, 8,
   57, 49, 41, 33, 25, 17, 9, 1,
   59, 51, 43, 35, 27, 19, 11, 3,
   61, 53, 45, 37, 29, 21, 13, 5,
   63, 55, 47, 39, 31, 23, 15, 7]

/-- IP^-1, the final permutation (R68). -/
def tableIPInv : List Nat :=
  [40, 8, 48, 16, 56, 24, 64, 32,
   39, 7, 47, 15, 55, 23, 63, 31,
   38, 6, 46, 14, 54, 22, 62, 30,
   37, 5, 45, 13, 53, 21, 61, 29,
   36, 4, 44, 12, 52, 20, 60, 28,
   35, 3, 43, 11, 51, 19, 59, 27,
   34, 2, 42, 10, 50, 18, 58, 26,
   33, 1, 41, 9, 49, 17, 57, 25]

/-- permute(x, IP, 64). -/
def initialPermutation (x : Block) : Block := permute tableIP 64 x

/-- permute(x, IP^-1, 64). -/
def finalPermutation (x : Block) : Block := permute tableIPInv 64 x

end Sys2Proof.Machine
end

