-- ==== Sys2Proof/Machine/KeySchedules.lean ====
section
/-!
DEFINITION. The key schedule (41_key_schedule): PC-1, the shift schedule, rotl28, PC-2 and keySchedule.
-/

namespace Sys2Proof.Machine

/-- PC-1, C half (R70). -/
def tablePC1C : List Nat :=
  [57, 49, 41, 33, 25, 17, 9,
   1, 58, 50, 42, 34, 26, 18,
   10, 2, 59, 51, 43, 35, 27,
   19, 11, 3, 60, 52, 44, 36]

/-- PC-1, D half (R70). -/
def tablePC1D : List Nat :=
  [63, 55, 47, 39, 31, 23, 15,
   7, 62, 54, 46, 38, 30, 22,
   14, 6, 61, 53, 45, 37, 29,
   21, 13, 5, 28, 20, 12, 4]

/-- PC-2 (R77). -/
def tablePC2 : List Nat :=
  [14, 17, 11, 24, 1, 5,
   3, 28, 15, 6, 21, 10,
   23, 19, 12, 4, 26, 8,
   16, 7, 27, 20, 13, 2,
   41, 52, 31, 37, 47, 55,
   30, 40, 51, 45, 33, 48,
   44, 49, 39, 56, 34, 53,
   46, 42, 50, 36, 29, 32]

/-- SHIFT[1..16] (R73). -/
def shiftSchedule : List Nat := [1, 1, 2, 2, 2, 2, 2, 2, 1, 2, 2, 2, 2, 2, 2, 1]

/-- One left rotation of a `Bits 28` value: positions 2..28 move down and position 1 goes to 28 (R74). -/
def rotl28One (v : KeyHalf) : KeyHalf := v.extractLsb' 0 27 ++ v.extractLsb' 27 1

/-- rotl28(v, shift) (R74): `shift` single rotations. -/
def rotl28 (v : KeyHalf) : Nat → KeyHalf
  | 0 => v
  | k + 1 => rotl28 (rotl28One v) k

/-- One pass of R74's outer loop on the 4-byte buffer of a key half: positions 29..32 are never written (R72). -/
def rotl28OneBuffer (buf : List Byte) : List Byte :=
  putBit ((List.range 27).foldl (fun acc k => putBit acc (k + 1) (getBit acc (k + 2))) buf) 28 (getBit buf 1)

/-- rotl28(v, shift) on the 4-byte buffer, as the source's routine does it (R74). -/
def rotl28Buffer (buf : List Byte) (shift : Nat) : List Byte := rotl28OneBuffer^[shift] buf

/-- C0 = permute(key, PC1_C, 28) (R70). -/
def keyHalfC (key : Block) : KeyHalf := permute tablePC1C 28 key

/-- D0 = permute(key, PC1_D, 28) (R70). -/
def keyHalfD (key : Block) : KeyHalf := permute tablePC1D 28 key

/-- PC-2 of rotated C followed by rotated D (R77, R78). -/
def compressKey (c d : KeyHalf) : Subkey := permute tablePC2 48 (c ++ d)

/-- The loop of R78 from the halves `c`, `d` on: each round rotates the values the round before left. -/
def subkeysFrom (c d : KeyHalf) : List Nat → List Subkey
  | [] => []
  | shift :: rest =>
    compressKey (rotl28 c shift) (rotl28 d shift) :: subkeysFrom (rotl28 c shift) (rotl28 d shift) rest

theorem subkeysFrom_length (shifts : List Nat) : ∀ c d, (subkeysFrom c d shifts).length = shifts.length := by
  induction shifts with
  | nil => intro c d; rfl
  | cons sh rest ih => intro c d; simp [subkeysFrom, ih]

/-- keySchedule(key) (R78). -/
def keySchedule (key : Block) : Schedule :=
  ⟨(subkeysFrom (keyHalfC key) (keyHalfD key) shiftSchedule).toArray, by
    simp [subkeysFrom_length, shiftSchedule]⟩

/-- K[r] for r in 1..16 (R78). Other r do not occur (R26); what they answer is the model's (DESIGN CHOICE, log entry 14):
r = 0 is K[1], and r above 16 is 0. -/
def subkey (K : Schedule) (r : Nat) : Subkey := K.toList.getD (r - 1) 0

end Sys2Proof.Machine
end

