-- ==== Sys2Proof/Machine/RoundFunction.lean ====
section
/-!
DEFINITION. The substitution stage and the round function f (42_substitution_round): S1..S8, E, P and f.
-/

namespace Sys2Proof.Machine

/-- S1 (R81), rows 0..3, columns 0..15. -/
def tableS1 : List (List Nat) :=
  [[14, 4, 13, 1, 2, 15, 11, 8, 3, 10, 6, 12, 5, 9, 0, 7],
   [0, 15, 7, 4, 14, 2, 13, 1, 10, 6, 12, 11, 9, 5, 3, 8],
   [4, 1, 14, 8, 13, 6, 2, 11, 15, 12, 9, 7, 3, 10, 5, 0],
   [15, 12, 8, 2, 4, 9, 1, 7, 5, 11, 3, 14, 10, 0, 6, 13]]

/-- S2 (R81). -/
def tableS2 : List (List Nat) :=
  [[15, 1, 8, 14, 6, 11, 3, 4, 9, 7, 2, 13, 12, 0, 5, 10],
   [3, 13, 4, 7, 15, 2, 8, 14, 12, 0, 1, 10, 6, 9, 11, 5],
   [0, 14, 7, 11, 10, 4, 13, 1, 5, 8, 12, 6, 9, 3, 2, 15],
   [13, 8, 10, 1, 3, 15, 4, 2, 11, 6, 7, 12, 0, 5, 14, 9]]

/-- S3 (R81). -/
def tableS3 : List (List Nat) :=
  [[10, 0, 9, 14, 6, 3, 15, 5, 1, 13, 12, 7, 11, 4, 2, 8],
   [13, 7, 0, 9, 3, 4, 6, 10, 2, 8, 5, 14, 12, 11, 15, 1],
   [13, 6, 4, 9, 8, 15, 3, 0, 11, 1, 2, 12, 5, 10, 14, 7],
   [1, 10, 13, 0, 6, 9, 8, 7, 4, 15, 14, 3, 11, 5, 2, 12]]

/-- S4 (R81). -/
def tableS4 : List (List Nat) :=
  [[7, 13, 14, 3, 0, 6, 9, 10, 1, 2, 8, 5, 11, 12, 4, 15],
   [13, 8, 11, 5, 6, 15, 0, 3, 4, 7, 2, 12, 1, 10, 14, 9],
   [10, 6, 9, 0, 12, 11, 7, 13, 15, 1, 3, 14, 5, 2, 8, 4],
   [3, 15, 0, 6, 10, 1, 13, 8, 9, 4, 5, 11, 12, 7, 2, 14]]

/-- S5 (R81). -/
def tableS5 : List (List Nat) :=
  [[2, 12, 4, 1, 7, 10, 11, 6, 8, 5, 3, 15, 13, 0, 14, 9],
   [14, 11, 2, 12, 4, 7, 13, 1, 5, 0, 15, 10, 3, 9, 8, 6],
   [4, 2, 1, 11, 10, 13, 7, 8, 15, 9, 12, 5, 6, 3, 0, 14],
   [11, 8, 12, 7, 1, 14, 2, 13, 6, 15, 0, 9, 10, 4, 5, 3]]

/-- S6 (R81). -/
def tableS6 : List (List Nat) :=
  [[12, 1, 10, 15, 9, 2, 6, 8, 0, 13, 3, 4, 14, 7, 5, 11],
   [10, 15, 4, 2, 7, 12, 9, 5, 6, 1, 13, 14, 0, 11, 3, 8],
   [9, 14, 15, 5, 2, 8, 12, 3, 7, 0, 4, 10, 1, 13, 11, 6],
   [4, 3, 2, 12, 9, 5, 15, 10, 11, 14, 1, 7, 6, 0, 8, 13]]

/-- S7 (R81). -/
def tableS7 : List (List Nat) :=
  [[4, 11, 2, 14, 15, 0, 8, 13, 3, 12, 9, 7, 5, 10, 6, 1],
   [13, 0, 11, 7, 4, 9, 1, 10, 14, 3, 5, 12, 2, 15, 8, 6],
   [1, 4, 11, 13, 12, 3, 7, 14, 10, 15, 6, 8, 0, 5, 9, 2],
   [6, 11, 13, 8, 1, 4, 10, 7, 9, 5, 0, 15, 14, 2, 3, 12]]

/-- S8 (R81). -/
def tableS8 : List (List Nat) :=
  [[13, 2, 8, 4, 6, 15, 11, 1, 10, 9, 3, 14, 5, 0, 12, 7],
   [1, 15, 13, 8, 10, 3, 7, 4, 12, 5, 6, 11, 0, 14, 9, 2],
   [7, 11, 4, 1, 9, 12, 14, 2, 0, 6, 10, 13, 15, 3, 5, 8],
   [2, 1, 14, 7, 4, 10, 8, 13, 15, 12, 9, 0, 3, 5, 6, 11]]

/-- S[idx], the box of number idx + 1 (R80, R81). -/
def tableS : List (List (List Nat)) :=
  [tableS1, tableS2, tableS3, tableS4, tableS5, tableS6, tableS7, tableS8]

/-- S[idx][row][col] (R81). -/
def sBoxEntry (idx row col : Nat) : Nat := ((tableS.getD idx []).getD row []).getD col 0

/-- The row of a six-bit group: its outer two bits (R80). -/
def sBoxRow (x : BitVec 48) (idx : Nat) : Nat :=
  2 * (bitAt x (idx * 6 + 1)).toNat + (bitAt x (idx * 6 + 6)).toNat

/-- The column of a six-bit group: its middle four bits, the first of them most significant (R80). -/
def sBoxCol (x : BitVec 48) (idx : Nat) : Nat :=
  8 * (bitAt x (idx * 6 + 2)).toNat + 4 * (bitAt x (idx * 6 + 3)).toNat +
  2 * (bitAt x (idx * 6 + 4)).toNat + (bitAt x (idx * 6 + 5)).toNat

/-- sBox(input48, idx) for idx in 0..7 (R80): a plain four-bit value (R82). Other idx do not occur, and answer 0 (DESIGN
CHOICE, log entry 14). -/
def sBox (x : BitVec 48) (idx : Nat) : BitVec 4 :=
  BitVec.ofNat 4 (sBoxEntry idx (sBoxRow x idx) (sBoxCol x idx))

/-- E, the expansion permutation (R83). -/
def tableE : List Nat :=
  [32, 1, 2, 3, 4, 5,
   4, 5, 6, 7, 8, 9,
   8, 9, 10, 11, 12, 13,
   12, 13, 14, 15, 16, 17,
   16, 17, 18, 19, 20, 21,
   20, 21, 22, 23, 24, 25,
   24, 25, 26, 27, 28, 29,
   28, 29, 30, 31, 32, 1]

/-- P, the P-box permutation (R84). -/
def tableP : List Nat :=
  [16, 7, 20, 21,
   29, 12, 28, 17,
   1, 15, 23, 26,
   5, 18, 31, 10,
   2, 8, 24, 14,
   32, 27, 3, 9,
   19, 13, 30, 6,
   22, 11, 4, 25]

/-- permute(R, E, 48). -/
def expand (r : Half) : BitVec 48 := permute tableE 48 r

/-- The eight S-box results at consecutive positions, S1's first (R85). -/
def substitute (x : BitVec 48) : Half :=
  sBox x 0 ++ sBox x 1 ++ sBox x 2 ++ sBox x 3 ++ sBox x 4 ++ sBox x 5 ++ sBox x 6 ++ sBox x 7

/-- f(R, K) (R85). -/
def roundF (r : Half) (k : Subkey) : Half := permute tableP 32 (substitute (expand r ^^^ k))

end Sys2Proof.Machine
end

