-- ==== Sys2Proof/Machine/BlockCipher.lean ====
section
/-!
DEFINITION. The 16-round block cipher desBlock (43_block_cipher), the EDE block functions tdesE and tdesD, padding and
depadding, and the block loop of the buffer commands (44_triple_des).
-/

namespace Sys2Proof.Machine

/-- The direction of one block transformation (R87). -/
inductive Direction where
  | encrypt
  | decrypt
  deriving DecidableEq, Repr

/-- The subkeys in the order the rounds use them: K[1]..K[16], or K[16]..K[1] to decrypt (R91). -/
def roundKeys (K : Schedule) : Direction → List Subkey
  | .encrypt => K.toList
  | .decrypt => K.toList.reverse

/-- Round(r): (L, R) becomes (R, L xor f(R, k)) (R89). -/
def feistelRound (lr : Half × Half) (k : Subkey) : Half × Half := (lr.2, lr.1 ^^^ roundF lr.2 k)

/-- The rounds in order (R87). -/
def feistelRounds (ks : List Subkey) (lr : Half × Half) : Half × Half := ks.foldl feistelRound lr

/-- Split: the halves L0 and R0 of IP(block) (R88). -/
def splitBlock (x : Block) : Half × Half :=
  ((initialPermutation x).extractLsb' 32 32, (initialPermutation x).extractLsb' 0 32)

/-- Combine+FinalPermute: IP^-1 of R followed by L (R90). -/
def combineHalves (lr : Half × Half) : Block := finalPermutation (lr.2 ++ lr.1)

/-- desBlock(block, K, dir) (R87). -/
def desBlock (x : Block) (K : Schedule) (dir : Direction) : Block :=
  combineHalves (feistelRounds (roundKeys K dir) (splitBlock x))

/-- tdesE(x, KA, KB, KC) (R97). -/
def tdesE (x : Block) (KA KB KC : Schedule) : Block :=
  desBlock (desBlock (desBlock x KA .encrypt) KB .decrypt) KC .encrypt

/-- tdesD(y, KA, KB, KC) (R98). -/
def tdesD (y : Block) (KA KB KC : Schedule) : Block :=
  desBlock (desBlock (desBlock y KC .decrypt) KB .encrypt) KA .decrypt

/-! ## Triple keys -/

/-- The 24 bytes K1, K2, K3 of a triple key (R6, R102). -/
structure TripleKey where
  k1 : Block
  k2 : Block
  k3 : Block
  deriving DecidableEq, Repr

/-- The split of the 24 key bytes: [0:8), [8:16), [16:24) (R25, R102). -/
def tripleKeyOfBytes (kb : List Byte) : TripleKey where
  k1 := blockOfBytes kb
  k2 := blockOfBytes (kb.drop 8)
  k3 := blockOfBytes (kb.drop 16)

/-- tdesE under the three schedules of a triple key (R102, R109). -/
def encryptWith (k : TripleKey) (x : Block) : Block :=
  tdesE x (keySchedule k.k1) (keySchedule k.k2) (keySchedule k.k3)

/-- tdesD under the three schedules of a triple key (R102, R110). -/
def decryptWith (k : TripleKey) (y : Block) : Block :=
  tdesD y (keySchedule k.k1) (keySchedule k.k2) (keySchedule k.k3)

/-! ## Padding and the block loop -/

/-- The pad length of a plaintext of n bytes (R103). -/
def padLength (n : Nat) : Nat := 8 - n % 8

/-- padded(src) = src ++ [pad] * pad (R104). -/
def padded (src : List Byte) : List Byte :=
  src ++ List.replicate (padLength src.length) (BitVec.ofNat 8 (padLength src.length))

/-- The loop over `count` consecutive 8-byte blocks, each transformed on its own (R109, R110, R113). -/
def mapBlocks (g : Block → Block) : Nat → List Byte → List Byte
  | 0, _ => []
  | count + 1, bs => bytesOfBlock (g (blockOfBytes bs)) ++ mapBlocks g count (bs.drop 8)

/-- The pad length a decrypted buffer states: its last byte (R105). -/
def statedPad (out : List Byte) : Nat := (out.getD (out.length - 1) 0).toNat

/-- Depadding (R105): the first n - pad bytes, or nothing where the last byte is outside 1..8. -/
def depadded (out : List Byte) : Option (List Byte) :=
  if 1 ≤ statedPad out ∧ statedPad out ≤ 8 then some (out.take (out.length - statedPad out)) else none

end Sys2Proof.Machine
end

