-- ==== Sys2Proof/Config.lean ====
section
/-!
DEFINITION. What the platform fixes (MEM_SIZE and REG_BASE) and the model's free values.
-/

namespace Sys2Proof

/-- The two OPEN parameters of 92_eei_decisions. They are plain data that the state carries and no step writes, so a
statement about every state holds for every value of them. -/
structure Config where
  /-- MEM_SIZE, the size of the buffer memory in bytes (R7). -/
  memSize : Nat
  /-- REG_BASE, where the platform places the register window (R51). No rule depends on it (R33). -/
  regBase : Nat
  deriving DecidableEq, Repr

/-- R7: 1 <= MEM_SIZE <= 2^31. -/
def Config.legal (c : Config) : Bool := decide (1 ≤ c.memSize ∧ c.memSize ≤ 2 ^ 31)

/-- The platform address of the register at offset `off` of the window (R51). -/
def Config.registerAddress (c : Config) (off : Nat) : Nat := c.regBase + off

/-- FREE VALUE (R38, 93_implementation_defined I3): what a byte that nothing has written since power-on is read as, by
the number of writes and commands the host has issued and by address. It has no body: no proof can see a value of it.
Log entry 4. -/
opaque Config.freeByte : Nat → Nat → Byte

end Sys2Proof
end

