-- ==== Sys2Proof/Machine/State.lean ====
section
/-!
DEFINITION. The state of the engine, its buffer memory and its host, as plain data (10_state, 45_host_interface), the
state after reset, and the reasons a step can stop.
-/

namespace Sys2Proof.Machine

/-- The buffer memory: the written bytes as (address, byte) pairs, addresses strictly rising. An address that is not
listed has not been written since power-on and has no defined value (R38), so no listed byte equals it. -/
abbrev Memory := List Host.Cell

/-- One host transaction (R114). Register offsets are from REG_BASE (R51); addresses are buffer-memory addresses. -/
inductive HostTxn where
  /-- RegWrite(off, w): a 32-bit register write (R115). A write to CMD runs a command (R117). -/
  | regWrite (off : Nat) (w : Word)
  /-- RegRead(off): a 32-bit register read (R116). -/
  | regRead (off : Nat)
  /-- A register access of another width than 32 bits. It is not part of the interface, and the model refuses it
  (R43, R120). It stands here so that the refusal can be stated. -/
  | regOtherWidth (off : Nat)
  /-- MemWrite(a, b): write one byte (R119). -/
  | memWrite (a : Nat) (b : Byte)
  /-- MemRead(a): read one byte (R119). -/
  | memRead (a : Nat)
  /-- Reset (R140). -/
  | reset
  deriving DecidableEq, Repr

/-- What a host read returned. -/
inductive Response where
  /-- The word a RegRead returned (R116). -/
  | word (w : Word)
  /-- The byte a MemRead returned (R119). -/
  | byte (b : Byte)
  deriving DecidableEq, Repr

/-- Why a step stops with a fault. -/
inductive Fault where
  /-- Raised by a host MemWrite or MemRead at an address >= MEM_SIZE: it is not part of the interface and the host is
  stuck (R119, 93 I4). Safe for the engine: only runs in which the host breaks its duty are lost. -/
  | hostAddressOutsideMemory
  deriving DecidableEq, Repr

/-- Why a step is refused. -/
inductive Refusal where
  /-- Raised by `exec` for an instruction that has no meaning yet. Safe: the run stops. -/
  | notModelled (mnemonic : String)
  /-- Raised by a host register access that is not an aligned 32-bit word inside the window 0x000..0xFFC: it is not
  part of the interface (R43, R120, 93 I5, I6). Safe: only runs in which the host breaks its duty are lost. -/
  | registerAccessOutsideInterface
  deriving DecidableEq, Repr

/-- Everything the spec gives the machine (10_state section 1), the two open parameters, the host and the index of the
free values. CMD stores nothing (R14), and BLOCK_HI and BLOCK_LO are views of `block` (R23). -/
structure State where
  /-- STATUS.ERR, bits 3:0 of STATUS (R15, R16). -/
  err : BitVec 4
  /-- STATUS.KSV, bit 4 of STATUS (R15, R17). -/
  ksv : Bool
  /-- KEY_ADDR (R18). -/
  keyAddr : Word
  /-- KEY_LEN (R19). -/
  keyLen : Word
  /-- SRC_ADDR (R20). -/
  srcAddr : Word
  /-- SRC_LEN (R20). -/
  srcLen : Word
  /-- DST_ADDR (R21). -/
  dstAddr : Word
  /-- DST_LEN (R22). -/
  dstLen : Word
  /-- BLOCK = BLOCK_HI followed by BLOCK_LO (R23). -/
  block : Block
  /-- KEY1 (R25). -/
  key1 : Block
  /-- KEY2 (R25). -/
  key2 : Block
  /-- KEY3 (R25). -/
  key3 : Block
  /-- KS1 (R26). -/
  ks1 : Schedule
  /-- KS2 (R26). -/
  ks2 : Schedule
  /-- KS3 (R26). -/
  ks3 : Schedule
  /-- The buffer memory (R32, R38). -/
  mem : Memory
  /-- MEM_SIZE and REG_BASE (R7, R51): no step writes them. Log entries 1 and 2. -/
  cfg : Config
  /-- The transactions the host has still to issue, in program order (R122). Log entry 6. -/
  program : List HostTxn
  /-- What the host's reads have returned, newest first. Log entry 7. -/
  responses : List Response
  /-- The model's own: how many writes, commands and resets the host has issued. It indexes the free values of
  never-written bytes (R38, R39). Log entry 5. -/
  epoch : Nat
  deriving DecidableEq, Repr

/-- A schedule of sixteen zero subkeys. -/
def zeroSchedule : Schedule := Vector.replicate 16 0

/-- The machine right after reset (R31, R140). KEY1..3 and KS1..3 are unspecified there: 0 is a DESIGN CHOICE (log
entry 3). MEM_SIZE = 0x1000 and REG_BASE = 0 are DESIGN CHOICES (log entries 1 and 2). Nothing is written in the buffer
memory, and the host has no program. -/
def State.reset : State where
  err := 0
  ksv := false
  keyAddr := 0
  keyLen := 0
  srcAddr := 0
  srcLen := 0
  dstAddr := 0
  dstLen := 0
  block := 0
  key1 := 0
  key2 := 0
  key3 := 0
  ks1 := zeroSchedule
  ks2 := zeroSchedule
  ks3 := zeroSchedule
  mem := []
  cfg := { memSize := 0x1000, regBase := 0 }
  program := []
  responses := []
  epoch := 0

end Sys2Proof.Machine
end

