-- ==== Sys2Proof/Machine/Flags.lean ====
section
/-!
DEFINITION. The engine's only status flags, STATUS.ERR and STATUS.KSV (R15, R16, R17, R30), and the error codes (R123).
-/

namespace Sys2Proof.Machine

/-- The outcomes a command can report (R123). -/
inductive ErrCode where
  | ok
  | invalidKeyLength
  | invalidCiphertextLength
  | invalidPadding
  | illegalCommand
  | noKeySchedule
  | addressFault
  deriving DecidableEq, Repr

/-- The number of an outcome in STATUS.ERR (R123). -/
def errNumber : ErrCode → BitVec 4
  | .ok => 0
  | .invalidKeyLength => 1
  | .invalidCiphertextLength => 2
  | .invalidPadding => 3
  | .illegalCommand => 4
  | .noKeySchedule => 5
  | .addressFault => 6

/-- STATUS.ERR <- code (R16). -/
def setErr (c : ErrCode) (s : State) : State := { s with err := errNumber c }

/-- STATUS.KSV <- 1 (R17). -/
def setKsv (s : State) : State := { s with ksv := true }

/-- STATUS as the host reads it: (KSV << 4) | ERR, the reserved bits 31:5 zero (R15, R116). -/
def statusWord (s : State) : Word :=
  ((BitVec.ofBool s.ksv).setWidth 32 <<< 4) ||| s.err.setWidth 32

end Sys2Proof.Machine
end

