-- ==== Sys2Proof/Machine/Ops.lean ====
section
/-!
DEFINITION. The named operations over memory and registers: reading and writing buffer-memory bytes (R34 to R38), the
single operation that reports an error (R131), and the updates the commands are made of.
-/

namespace Sys2Proof.Machine

/-! ## Buffer memory -/

/-- The byte written last at an address, or none where nothing has been written since power-on (R38, R50). -/
def Memory.lookup : Memory → Nat → Option Byte
  | [], _ => none
  | (k, v) :: rest, a => if k = a then some v else Memory.lookup rest a

/-- Write one byte, keeping the addresses strictly rising (R35). -/
def Memory.store : Memory → Nat → Byte → Memory
  | [], a, b => [(a, b)]
  | (k, v) :: rest, a, b =>
    if a < k then (a, b) :: (k, v) :: rest
    else if a = k then (a, b) :: rest
    else (k, v) :: Memory.store rest a b

/-- MemWrite(addr, n, bs): bs[k] goes to addr+k (R35). -/
def Memory.storeBytes : Memory → Nat → List Byte → Memory
  | m, _, [] => m
  | m, a, b :: bs => Memory.storeBytes (m.store a b) (a + 1) bs

/-- The addresses of the first entry on: each strictly above the one before. -/
def Memory.risingFrom : Nat → Memory → Bool
  | _, [] => true
  | low, (k, _) :: rest => decide (low ≤ k) && Memory.risingFrom (k + 1) rest

/-- The canonical form: addresses strictly rising. -/
def Memory.wf (m : Memory) : Bool := Memory.risingFrom 0 m

/-- Every listed address exists: it is below MEM_SIZE (R32). -/
def Memory.below (size : Nat) (m : Memory) : Bool := m.all fun c => decide (c.1 < size)

/-- What an address that is not listed reads as: a FREE VALUE, no value the model knows (R38, 93 I3). Log entry 4. -/
def unwrittenByte (s : State) (a : Nat) : Byte := Config.freeByte s.epoch a

/-- One byte of buffer memory as a command or the host reads it (R35, R119). -/
def readByte (s : State) (a : Nat) : Byte := (s.mem.lookup a).getD (unwrittenByte s a)

/-- MemRead(addr, n): the bytes at addr, addr+1, .., addr+n-1, in that order (R35). -/
def readBytes (s : State) : Nat → Nat → List Byte
  | _, 0 => []
  | a, n + 1 => readByte s a :: readBytes s (a + 1) n

/-- InRange(addr, n), by exact natural numbers (R34). An empty range is always in range (conflict C7). -/
def inRange (s : State) (a n : Nat) : Bool := decide (n = 0 ∨ a + n ≤ s.cfg.memSize)

/-! ## Reporting the outcome -/

/-- raise Error(code): the one way a command fails. STATUS.ERR is written and nothing else changes: no saved program
counter, no mode, no vector, no handler (R131). There is no return from it: the next command just runs (R132). -/
def raiseError (c : ErrCode) (s : State) : Host.Outcome State Fault Refusal := .next (setErr c s)

/-- The end of a command that succeeds: STATUS.ERR <- OK (R16). -/
def succeed (s : State) : Host.Outcome State Fault Refusal := .next (setErr .ok s)

/-! ## Updates -/

/-- BLOCK <- x (R23). -/
def setBlock (x : Block) (s : State) : State := { s with block := x }

/-- One byte of buffer memory <- b (R119). -/
def setByte (a : Nat) (b : Byte) (s : State) : State := { s with mem := s.mem.store a b }

/-- KEY1..3 and KS1..3 become the triple key and its schedules, and KSV <- 1 (R25, R26, R102). -/
def loadKeys (k : TripleKey) (s : State) : State :=
  setKsv { s with
    key1 := k.k1, key2 := k.k2, key3 := k.k3
    ks1 := keySchedule k.k1, ks2 := keySchedule k.k2, ks3 := keySchedule k.k3 }

/-- MemWrite(DST_ADDR, len(out), out) and DST_LEN <- len(out) (R109, R110). -/
def storeOutput (out : List Byte) (s : State) : State :=
  { s with
    mem := s.mem.storeBytes s.dstAddr.toNat out
    dstLen := BitVec.ofNat 32 out.length }

end Sys2Proof.Machine
end

