-- ==== Sys2Proof/Machine/Operands.lean ====
section
/-!
DEFINITION. The operands of the commands and of the host's register transactions: the register map (R51), the SLOT
operand (R56), and the implicit operands of R57 with the checks every user of them makes first.
-/

namespace Sys2Proof.Machine

/-! ## The register map -/

/-- The ten host-visible registers (R51). -/
inductive Reg where
  | cmd
  | status
  | keyAddr
  | keyLen
  | srcAddr
  | srcLen
  | dstAddr
  | dstLen
  | blockHi
  | blockLo
  deriving DecidableEq, Repr

/-- The register at an offset of the window; none where the offset is unmapped (R24, R51). -/
def registerAt (off : Nat) : Option Reg :=
  match off with
  | 0x00 => some .cmd
  | 0x04 => some .status
  | 0x08 => some .keyAddr
  | 0x0C => some .keyLen
  | 0x10 => some .srcAddr
  | 0x14 => some .srcLen
  | 0x18 => some .dstAddr
  | 0x1C => some .dstLen
  | 0x20 => some .blockHi
  | 0x24 => some .blockLo
  | _ => none

/-- The offsets at which a register access exists: multiples of 4 in 0x000..0xFFC (R43, R120). -/
def accessibleOffset (off : Nat) : Bool := decide (off % 4 = 0 ∧ off ≤ 0xFFC)

/-- REG[name] as the host reads it (R116): CMD reads 0. -/
def readReg (r : Reg) (s : State) : Word :=
  match r with
  | .cmd => 0
  | .status => statusWord s
  | .keyAddr => s.keyAddr
  | .keyLen => s.keyLen
  | .srcAddr => s.srcAddr
  | .srcLen => s.srcLen
  | .dstAddr => s.dstAddr
  | .dstLen => s.dstLen
  | .blockHi => s.block.extractLsb' 32 32
  | .blockLo => s.block.extractLsb' 0 32

/-- REG[name] <- w as the host writes it (R115): STATUS and DST_LEN are read-only. The command a CMD write starts is
not here: CMD stores nothing (R14). -/
def writeReg (r : Reg) (w : Word) (s : State) : State :=
  match r with
  | .cmd => s
  | .status => s
  | .keyAddr => { s with keyAddr := w }
  | .keyLen => { s with keyLen := w }
  | .srcAddr => { s with srcAddr := w }
  | .srcLen => { s with srcLen := w }
  | .dstAddr => { s with dstAddr := w }
  | .dstLen => s
  | .blockHi => { s with block := w ++ s.block.extractLsb' 0 32 }
  | .blockLo => { s with block := s.block.extractLsb' 32 32 ++ w }

/-! ## Command operands -/

/-- The SLOT operand: KS(slot+1) (R56); none for SLOT = 3, which names no schedule (R54). -/
def slotSchedule (slot : BitVec 2) (s : State) : Option Schedule :=
  match slot.toNat with
  | 0 => some s.ks1
  | 1 => some s.ks2
  | 2 => some s.ks3
  | _ => none

/-- The block commands' check: KSV = 1, or NO_KEY_SCHEDULE (R17, R128). -/
def requireKeys (k : State → Host.Outcome State Fault Refusal) (s : State) : Host.Outcome State Fault Refusal :=
  if s.ksv then k s else raiseError .noKeySchedule s

/-- The keyed commands' first check: KEY_LEN = 24, or INVALID_KEY_LENGTH (R101, R124). -/
def requireKeyLength (k : State → Host.Outcome State Fault Refusal) (s : State) : Host.Outcome State Fault Refusal :=
  if s.keyLen = 24 then k s else raiseError .invalidKeyLength s

/-- The key range (R129). -/
def keyInRange (s : State) : Bool := inRange s s.keyAddr.toNat 24

/-- The source range: SRC_LEN bytes at SRC_ADDR (R129). -/
def sourceInRange (s : State) : Bool := inRange s s.srcAddr.toNat s.srcLen.toNat

/-- A destination range of `len` bytes at DST_ADDR (R129). -/
def destinationInRange (s : State) (len : Nat) : Bool := inRange s s.dstAddr.toNat len

/-- The triple key in buffer memory at KEY_ADDR (R41, R102). -/
def keyOperand (s : State) : TripleKey := tripleKeyOfBytes (readBytes s s.keyAddr.toNat 24)

/-- The source bytes (R57). -/
def sourceOperand (s : State) : List Byte := readBytes s s.srcAddr.toNat s.srcLen.toNat

end Sys2Proof.Machine
end

