-- ==== Sys2Proof/Machine/BlockCommands.lean ====
section
/-!
DEFINITION. The meanings of the block commands DES.ENC, DES.DEC (43_block_cipher R95, R96), TDES.EBLK and TDES.DBLK
(44_triple_des R107, R108).
-/

namespace Sys2Proof.Machine

/-- BLOCK <- desBlock(BLOCK, KS(slot+1), dir) (R95, R96). SLOT = 3 is ILLEGAL_COMMAND; no command word decodes to it
(R54, R55), and it comes before every other check (R130). Log entry 13. -/
def desCommand (dir : Direction) (slot : BitVec 2) (s : State) : Host.Outcome State Fault Refusal :=
  match slotSchedule slot s with
  | none => raiseError .illegalCommand s
  | some K => requireKeys (fun s => succeed (setBlock (desBlock s.block K dir) s)) s

/-- DES.ENC (R95). -/
def execDesEnc (slot : BitVec 2) (s : State) : Host.Outcome State Fault Refusal := desCommand .encrypt slot s

/-- DES.DEC (R96). -/
def execDesDec (slot : BitVec 2) (s : State) : Host.Outcome State Fault Refusal := desCommand .decrypt slot s

/-- TDES.EBLK (R107): BLOCK <- tdesE(BLOCK, KS1, KS2, KS3). -/
def execTdesEblk (s : State) : Host.Outcome State Fault Refusal :=
  requireKeys (fun s => succeed (setBlock (tdesE s.block s.ks1 s.ks2 s.ks3) s)) s

/-- TDES.DBLK (R108): BLOCK <- tdesD(BLOCK, KS1, KS2, KS3). -/
def execTdesDblk (s : State) : Host.Outcome State Fault Refusal :=
  requireKeys (fun s => succeed (setBlock (tdesD s.block s.ks1 s.ks2 s.ks3) s)) s

end Sys2Proof.Machine
end

