-- ==== Sys2Proof/Machine/BufferCommands.lean ====
section
/-!
DEFINITION. The meanings of the buffer commands TDES.ENC and TDES.DEC (44_triple_des R109, R110).
-/

namespace Sys2Proof.Machine

/-- The length of TDES.ENC's output: n + pad, exact (R109). -/
def paddedLength (n : Nat) : Nat := n + padLength n

/-- The bytes TDES.ENC writes: the padded source, encrypted block by block (R109). -/
def encryptedOutput (s : State) : List Byte :=
  mapBlocks (encryptWith (keyOperand s)) (paddedLength s.srcLen.toNat / 8) (padded (sourceOperand s))

/-- The source decrypted block by block, before depadding (R110). -/
def decryptedBuffer (s : State) : List Byte :=
  mapBlocks (decryptWith (keyOperand s)) (s.srcLen.toNat / 8) (sourceOperand s)

/-- The end of a buffer command that succeeds: the output, DST_LEN, the key registers, KSV and ERR (R57, R109, R110).
Every operand is read before anything is written (R37). -/
def finishBuffer (out : List Byte) (s : State) : Host.Outcome State Fault Refusal :=
  succeed (loadKeys (keyOperand s) (storeOutput out s))

/-- TDES.ENC (R109). -/
def execTdesEnc (s : State) : Host.Outcome State Fault Refusal :=
  requireKeyLength (fun s =>
    if keyInRange s && sourceInRange s && destinationInRange s (paddedLength s.srcLen.toNat) then
      finishBuffer (encryptedOutput s) s
    else raiseError .addressFault s) s

/-- TDES.DEC (R110): the destination is checked for SRC_LEN bytes; INVALID_PADDING is found after decryption and
still changes nothing but ERR. -/
def execTdesDec (s : State) : Host.Outcome State Fault Refusal :=
  requireKeyLength (fun s =>
    if s.srcLen.toNat = 0 ∨ s.srcLen.toNat % 8 ≠ 0 then raiseError .invalidCiphertextLength s
    else if keyInRange s && sourceInRange s && destinationInRange s s.srcLen.toNat then
      match depadded (decryptedBuffer s) with
      | some out => finishBuffer out s
      | none => raiseError .invalidPadding s
    else raiseError .addressFault s) s

end Sys2Proof.Machine
end

