-- ==== Sys2Proof/Machine/KeyCommands.lean ====
section
/-!
DEFINITION. The meaning of the key command KEYLOAD (44_triple_des R106).
-/

namespace Sys2Proof.Machine

/-- KEYLOAD (R106): INVALID_KEY_LENGTH, then ADDRESS_FAULT, then the triple key at KEY_ADDR is loaded. -/
def execKeyload (s : State) : Host.Outcome State Fault Refusal :=
  requireKeyLength (fun s =>
    if keyInRange s then succeed (loadKeys (keyOperand s) s)
    else raiseError .addressFault s) s

end Sys2Proof.Machine
end

