-- ==== Sys2Proof/Machine/Dispatch.lean ====
section
/-!
DEFINITION. exec: the meaning of each command of the opcode table (R117), one arm per constructor.
-/

namespace Sys2Proof.Machine

/-- The rule of the command (R117). -/
def exec (i : Instr) (s : State) : Host.Outcome State Fault Refusal :=
  match i with
  | .keyload => Sys2Proof.Machine.execKeyload s
  | .desEnc slot => Sys2Proof.Machine.execDesEnc slot s
  | .desDec slot => Sys2Proof.Machine.execDesDec slot s
  | .tdesEblk => Sys2Proof.Machine.execTdesEblk s
  | .tdesDblk => Sys2Proof.Machine.execTdesDblk s
  | .tdesEnc => Sys2Proof.Machine.execTdesEnc s
  | .tdesDec => Sys2Proof.Machine.execTdesDec s

end Sys2Proof.Machine
end

