-- ==== Sys2Proof/Machine/Transactions.lean ====
section
/-!
DEFINITION. The host's transactions (45_host_interface R114 to R120, 70_reset_and_hazards R140): what each does to the
engine, and the command step a CMD write starts.
-/

namespace Sys2Proof.Machine

/-- execute(w), the engine step a write of w to CMD starts (R117). An ILLEGAL word is ILLEGAL_COMMAND, whatever the
reason (R55). -/
def execute (w : Word) (s : State) : Host.Outcome State Fault Refusal :=
  match decode w with
  | .ok i => exec i s
  | .error _ => raiseError .illegalCommand s

/-- RegWrite to a register of the window (R115). -/
def writeRegister (r : Reg) (w : Word) (s : State) : Host.Outcome State Fault Refusal :=
  match r with
  | .cmd => execute w s
  | _ => .next (writeReg r w s)

/-- RegWrite(off, w) (R115). Unmapped aligned offsets ignore it (R24); an offset outside the interface is refused
(R120). Log entry 9. -/
def regWrite (off : Nat) (w : Word) (s : State) : Host.Outcome State Fault Refusal :=
  if accessibleOffset off then
    match registerAt off with
    | some r => writeRegister r w s
    | none => .next s
  else .refused .registerAccessOutsideInterface

/-- The word a RegRead returns at an offset: 0 where it is unmapped (R24, R116). -/
def readOffset (off : Nat) (s : State) : Word :=
  match registerAt off with
  | some r => readReg r s
  | none => 0

/-- The host receives the result of a read (R116, R119). -/
def respond (r : Response) (s : State) : State := { s with responses := r :: s.responses }

/-- RegRead(off) (R116): the engine does not change (R39). -/
def regRead (off : Nat) (s : State) : Host.Outcome State Fault Refusal :=
  if accessibleOffset off then .next (respond (.word (readOffset off s)) s)
  else .refused .registerAccessOutsideInterface

/-- MemWrite(a, b) by the host (R119). Log entry 10. -/
def hostMemWrite (a : Nat) (b : Byte) (s : State) : Host.Outcome State Fault Refusal :=
  if a < s.cfg.memSize then .next (setByte a b s) else .fault .hostAddressOutsideMemory

/-- MemRead(a) by the host (R119): the engine does not change (R39). -/
def hostMemRead (a : Nat) (s : State) : Host.Outcome State Fault Refusal :=
  if a < s.cfg.memSize then .next (respond (.byte (readByte s a)) s) else .fault .hostAddressOutsideMemory

/-- The engine at its reset values (R31, R140): every register and internal state item, but not the buffer memory
(R141). What the host has still to do and has received is the host's, and the parameters and the index of the free
values are no registers. -/
def resetEngine (s : State) : State :=
  { State.reset with
    mem := s.mem, cfg := s.cfg, program := s.program, responses := s.responses, epoch := s.epoch }

/-- The next free values: any transaction but a read may be followed by others (R38, R39). Log entry 5. -/
def nextEpoch (s : State) : State := { s with epoch := s.epoch + 1 }

/-- One host transaction (R114). -/
def transact (t : HostTxn) (s : State) : Host.Outcome State Fault Refusal :=
  match t with
  | .regWrite off w => regWrite off w (nextEpoch s)
  | .regRead off => regRead off s
  | .regOtherWidth _ => .refused .registerAccessOutsideInterface
  | .memWrite a b => hostMemWrite a b (nextEpoch s)
  | .memRead a => hostMemRead a s
  | .reset => .next (resetEngine (nextEpoch s))

/-- The host issues its next transaction (R122). A host whose program has ended issues none, and the engine never acts
without a command (R5): nothing changes. Log entry 8. -/
def hostStep (s : State) : Host.Outcome State Fault Refusal :=
  match s.program with
  | [] => .next s
  | t :: rest => transact t { s with program := rest }

/-- The CMD word `w` as the host's very next transaction (R117). -/
def commandNext (w : Word) (s : State) : State := { s with program := .regWrite 0x00 w :: s.program }

end Sys2Proof.Machine
end

