-- ==== Sys2Proof/Machine/Step.lean ====
section
/-!
DEFINITION. One step of the machine: the host issues its next transaction and the engine completes it (R46, R117,
R122).
-/

namespace Sys2Proof.Machine

/-- One step: one host transaction, with the command it starts (R117, R122). -/
def step (s : State) : Host.Outcome State Fault Refusal := hostStep s

/-- `s` with the command word of bits `w` (the bits from `nbits` up are 0) as the host's very next transaction, so that
the next step executes it. The engine fetches nothing (R13): a command word reaches it only by a CMD write. Log
entry 6. -/
def State.withFetchWord (s : State) (nbits w : Nat) : State := commandNext (BitVec.ofNat 32 (w % 2 ^ nbits)) s

end Sys2Proof.Machine
end

