-- ==== Sys2Proof/Machine/HostPrograms.lean ====
section
/-!
DEFINITION. The host-program notation (30_encoding R59, R60): each line and pseudo-instruction as the list of host
transactions it stands for.
-/

namespace Sys2Proof.Machine

/-- `MW addr, bytes`: writes of consecutive bytes starting at addr (R59). -/
def lineMW (a : Nat) : List Byte → List HostTxn
  | [] => []
  | b :: bs => .memWrite a b :: lineMW (a + 1) bs

/-- `MR addr, n`: reads of n consecutive bytes starting at addr (R59). -/
def lineMR (a : Nat) : Nat → List HostTxn
  | 0 => []
  | n + 1 => .memRead a :: lineMR (a + 1) n

/-- A command mnemonic: `WR CMD, <encoding>` (R59, R60). -/
def lineCommand (i : Instr) : List HostTxn := [.regWrite 0x00 (encode i)]

/-- `SETKEY a` (R60). -/
def lineSETKEY (a : Word) : List HostTxn :=
  [.regWrite 0x08 a, .regWrite 0x0C 24] ++ lineCommand .keyload

/-- `SETBLK hi, lo` (R60). -/
def lineSETBLK (hi lo : Word) : List HostTxn := [.regWrite 0x20 hi, .regWrite 0x24 lo]

/-- The five register writes that ENCBUF and DECBUF begin with (R60). -/
def lineBufferOperands (k s n d : Word) : List HostTxn :=
  [.regWrite 0x08 k, .regWrite 0x0C 24, .regWrite 0x10 s, .regWrite 0x14 n, .regWrite 0x18 d]

/-- `ENCBUF k, s, n, d` (R60). -/
def lineENCBUF (k s n d : Word) : List HostTxn := lineBufferOperands k s n d ++ lineCommand .tdesEnc

/-- `DECBUF k, s, n, d` (R60). -/
def lineDECBUF (k s n d : Word) : List HostTxn := lineBufferOperands k s n d ++ lineCommand .tdesDec

end Sys2Proof.Machine
end

