-- ==== Sys2Proof/Safety.lean ====
section
/-!
DEFINITION. What counts as a safe run, in the terms the statements use: the invariant of every state, the transactions
that exist, the commands that take a key, and states that agree but for the key registers.
-/

namespace Sys2Proof.Machine

/-- R26: while KSV = 1 the key schedules are those of the keys. -/
abbrev SchedulesMatch (s : State) : Prop :=
  s.ksv = true → s.ks1 = keySchedule s.key1 ∧ s.ks2 = keySchedule s.key2 ∧ s.ks3 = keySchedule s.key3

/-- The invariant of every state: the parameters are legal (R7), the memory is in canonical form and lists only
addresses below MEM_SIZE (R32), ERR is a code that is produced (R123), the schedules match the keys while KSV = 1
(R26), and DST_LEN is a length that fits in the memory (R7, R22). -/
abbrev State.Inv (s : State) : Prop :=
  s.cfg.legal = true ∧ s.mem.wf = true ∧ s.mem.below s.cfg.memSize = true ∧ s.err.toNat ≤ 6 ∧ SchedulesMatch s ∧
  s.dstLen.toNat ≤ s.cfg.memSize

/-- A transaction of the interface: aligned 32-bit register accesses in 0x000..0xFFC (R120), memory bytes below
MEM_SIZE (R119), and Reset (R114). -/
def HostTxn.legal (memSize : Nat) : HostTxn → Bool
  | .regWrite off _ => decide (off % 4 = 0 ∧ off ≤ 0xFFC)
  | .regRead off => decide (off % 4 = 0 ∧ off ≤ 0xFFC)
  | .regOtherWidth _ => false
  | .memWrite a _ => decide (a < memSize)
  | .memRead a => decide (a < memSize)
  | .reset => true

/-- A CMD write (R117). -/
def HostTxn.isCommand : HostTxn → Bool
  | .regWrite off _ => decide (off = 0)
  | _ => false

/-- A CMD write of KEYLOAD, TDES.ENC or TDES.DEC, the commands that load keys (R25). -/
def HostTxn.loadsKeys : HostTxn → Bool
  | .regWrite off w => decide (off = 0 ∧ (w = 0x00000001 ∨ w = 0x00000006 ∨ w = 0x00000007))
  | _ => false

/-- A transaction that may write buffer memory: MemWrite, or a CMD write of TDES.ENC or TDES.DEC (R32, R57). -/
def HostTxn.writesMemory : HostTxn → Bool
  | .regWrite off w => decide (off = 0 ∧ (w = 0x00000006 ∨ w = 0x00000007))
  | .memWrite _ _ => true
  | _ => false

/-- The state with other contents of KEY1..3 and KS1..3. -/
def withKeyState (k1 k2 k3 : Block) (K1 K2 K3 : Schedule) (s : State) : State :=
  { s with key1 := k1, key2 := k2, key3 := k3, ks1 := K1, ks2 := K2, ks3 := K3 }

end Sys2Proof.Machine
end

