-- ==== Sys2Proof/Certificates/Slice0/Obligations.lean ====
section
/-!
DEFINITION. The statements for the provers. Each formalises numbered rules of spec/, or follows from them; nothing here
is proved.
-/

open Sys2Proof Sys2Proof.Machine

/-! ## Command words -/

/-- R54: decode is total on words, and exactly eleven words are commands. -/
def Obligations.ElevenWordsAreCommands : Prop :=
  ∀ (w : Word) (i : Instr), decode w = .ok i ↔
    (w, i) ∈ ([(0x00000001, .keyload),
      (0x00000002, .desEnc 0), (0x00000012, .desEnc 1), (0x00000022, .desEnc 2),
      (0x00000003, .desDec 0), (0x00000013, .desDec 1), (0x00000023, .desDec 2),
      (0x00000004, .tdesEblk), (0x00000005, .tdesDblk), (0x00000006, .tdesEnc), (0x00000007, .tdesDec)] :
      List (Word × Instr))

/-- R53, R54, R60: decode and encode agree, both ways: every well-formed command is read back from its word, and every
word that decodes is the word of the well-formed command it decodes to. -/
def Obligations.DecodeEncodeAgree : Prop :=
  (∀ i : Instr, i.wellFormed = true → decode (encode i) = .ok i) ∧
  (∀ (w : Word) (i : Instr), decode w = .ok i → i.wellFormed = true ∧ encode i = w)

/-- R53, R54: words written out from the encoding, one or more per family, and one that is ILLEGAL. That the decoder names
a reason is the model's choice (log entry 15): R54 has one ILLEGAL. -/
def Obligations.SpecWordsDecode : Prop :=
  decode 0x00000001 = .ok .keyload ∧ decode 0x00000012 = .ok (.desEnc 1) ∧ decode 0x00000023 = .ok (.desDec 2) ∧
  decode 0x00000004 = .ok .tdesEblk ∧ decode 0x00000005 = .ok .tdesDblk ∧ decode 0x00000006 = .ok .tdesEnc ∧
  decode 0x00000007 = .ok .tdesDec ∧ decode 0x00000032 = .error .slotNamesNoSchedule

/-- R55: the words it lists are ILLEGAL, and every ILLEGAL word only sets STATUS.ERR = 4. -/
def Obligations.IllegalWordsOnlySetErr : Prop :=
  (∀ w : Word,
    (w.extractLsb' 6 26 ≠ 0 ∨ (w.extractLsb' 0 4).toNat = 0 ∨ 8 ≤ (w.extractLsb' 0 4).toNat ∨
      (((w.extractLsb' 0 4).toNat = 2 ∨ (w.extractLsb' 0 4).toNat = 3) ∧ (w.extractLsb' 4 2).toNat = 3) ∨
      ((w.extractLsb' 0 4).toNat ≠ 2 ∧ (w.extractLsb' 0 4).toNat ≠ 3 ∧ (w.extractLsb' 4 2).toNat ≠ 0)) →
    ∃ r, decode w = .error r) ∧
  (∀ (w : Word) (r : IllegalWord) (s : State), decode w = .error r → execute w s = .next { s with err := 4 })

/-! ## The step -/

/-- R117: a CMD write as the host's next transaction runs the word in one step: a word that decodes runs its command, and
any other is ILLEGAL_COMMAND. Around it the step takes the transaction off the host's program and advances the index of the free values (log
entries 5 and 6). -/
def Obligations.StepRunsTheCommandWord : Prop :=
  ∀ (s : State) (w : Word) (rest : List HostTxn), s.program = .regWrite 0x00 w :: rest →
    step s = execute w { s with program := rest, epoch := s.epoch + 1 } ∧
    (∀ i : Instr, decode w = .ok i → step s = exec i { s with program := rest, epoch := s.epoch + 1 }) ∧
    (∀ r : IllegalWord, decode w = .error r →
      step s = .next { s with program := rest, epoch := s.epoch + 1, err := 4 })

/-- R117: every command, with any operand and in any state, completes in one step. That SLOT = 3, which no word decodes
to, is ILLEGAL_COMMAND as an instruction too is the model's choice (log entry 13). -/
def Obligations.EveryCommandCompletes : Prop :=
  (∀ (i : Instr) (s : State), ∃ t, exec i s = .next t) ∧ (∀ (w : Word) (s : State), ∃ t, execute w s = .next t) ∧
  (∀ s : State, exec (.desEnc 3) s = .next { s with err := 4 } ∧ exec (.desDec 3) s = .next { s with err := 4 })

/-- R114, R119, R120: a step answers a next state exactly where the host has ended its program or its next transaction is
one of the interface. Three points of it are the model's: that a step is still taken once the program has ended (log
entry 8), that register offsets which are no multiple of 4 do not answer, against R24 (log entry 9), and the transaction
that stands for accesses of another width (log entry 12). -/
def Obligations.StepAnswersExactlyOnTheInterface : Prop :=
  ∀ s : State, (∃ t, step s = .next t) ↔ ∀ x ∈ s.program.head?, x.legal s.cfg.memSize = true

/-- R114, R122: a host program inside the interface never stops the machine, after any number of steps. For more steps
than the program has transactions this rests on the model's choice that a step is still taken there (log entry 8). -/
def Obligations.LegalProgramsNeverStop : Prop :=
  ∀ (k : Nat) (s : State), (∀ x ∈ s.program, x.legal s.cfg.memSize = true) →
    ∃ t, Host.Core.run Sys2Proof.core k s = .next t

/-- R46, R122, R5: transactions are taken one at a time, in program order, and no step changes the parameters (R7).
Where the host's program has ended nothing changes; that a step is still taken there is the model's choice (log
entry 8). -/
def Obligations.StepTakesOneTransaction : Prop :=
  (∀ s t : State, step s = .next t → t.program = s.program.tail ∧ t.cfg = s.cfg) ∧
  (∀ s : State, s.program = [] → step s = .next s)

/-! ## Reset and the invariant -/

/-- R31: the registers right after reset. -/
def Obligations.ResetRegisters : Prop :=
  statusWord State.reset = 0 ∧ State.reset.keyAddr = 0 ∧ State.reset.keyLen = 0 ∧ State.reset.srcAddr = 0 ∧
  State.reset.srcLen = 0 ∧ State.reset.dstAddr = 0 ∧ State.reset.dstLen = 0 ∧
  readReg .blockHi State.reset = 0 ∧ readReg .blockLo State.reset = 0

/-- R140, R141: a Reset transaction sets every register and internal item to its reset value and leaves the buffer
memory. KEY1..3 and KS1..3 take the values log entry 3 chooses, which the spec leaves unspecified. -/
def Obligations.ResetTransaction : Prop :=
  ∀ (s : State) (rest : List HostTxn), s.program = .reset :: rest →
    ∃ t, step s = .next t ∧ statusWord t = 0 ∧ t.keyAddr = 0 ∧ t.keyLen = 0 ∧ t.srcAddr = 0 ∧ t.srcLen = 0 ∧
      t.dstAddr = 0 ∧ t.dstLen = 0 ∧ t.block = 0 ∧ t.mem = s.mem ∧ t.cfg = s.cfg ∧ t.responses = s.responses ∧
      t.program = rest

/-- The reset state meets the invariant of every state. -/
def Obligations.ResetMeetsInvariant : Prop := State.reset.Inv

/-- R7, R26, R32, R123, R22: every step keeps the invariant: legal parameters, canonical memory below MEM_SIZE, ERR at
most 6, schedules that match the keys while KSV = 1, and DST_LEN within the memory. -/
def Obligations.StepKeepsInvariant : Prop :=
  ∀ s t : State, s.Inv → step s = .next t → t.Inv

/-! ## The commands -/

/-- R106: KEYLOAD: its word, the other words of its OP (ILLEGAL_COMMAND), its two errors and its effect. -/
def Obligations.KeyloadFollowsItsRule : Prop :=
  decode 0x00000001 = .ok .keyload ∧
  ∀ s : State,
    (∀ w : Word, w.extractLsb' 0 4 = 1 → w ≠ 0x00000001 →
      execute w s = .next { s with err := 4 }) ∧
    (s.keyLen ≠ 24 → exec .keyload s = .next { s with err := 1 }) ∧
    (s.keyLen = 24 → s.cfg.memSize < s.keyAddr.toNat + 24 → exec .keyload s = .next { s with err := 6 }) ∧
    (s.keyLen = 24 → s.keyAddr.toNat + 24 ≤ s.cfg.memSize →
      exec .keyload s = .next { s with
        key1 := blockOfBytes (readBytes s s.keyAddr.toNat 8)
        key2 := blockOfBytes (readBytes s (s.keyAddr.toNat + 8) 8)
        key3 := blockOfBytes (readBytes s (s.keyAddr.toNat + 16) 8)
        ks1 := keySchedule (blockOfBytes (readBytes s s.keyAddr.toNat 8))
        ks2 := keySchedule (blockOfBytes (readBytes s (s.keyAddr.toNat + 8) 8))
        ks3 := keySchedule (blockOfBytes (readBytes s (s.keyAddr.toNat + 16) 8))
        ksv := true
        err := 0 })

/-- R95: DES.ENC at each of its slots, its words, and the other words of its OP. -/
def Obligations.DesEncFollowsItsRule : Prop :=
  (decode 0x00000002 = .ok (.desEnc 0) ∧ decode 0x00000012 = .ok (.desEnc 1) ∧ decode 0x00000022 = .ok (.desEnc 2)) ∧
  ∀ s : State,
    (∀ w : Word, w.extractLsb' 0 4 = 2 → w ≠ 0x00000002 → w ≠ 0x00000012 → w ≠ 0x00000022 →
      execute w s = .next { s with err := 4 }) ∧
    (s.ksv = false → ∀ slot : BitVec 2, slot ≠ 3 → exec (.desEnc slot) s = .next { s with err := 5 }) ∧
    (s.ksv = true →
      exec (.desEnc 0) s = .next { s with block := desBlock s.block s.ks1 .encrypt, err := 0 } ∧
      exec (.desEnc 1) s = .next { s with block := desBlock s.block s.ks2 .encrypt, err := 0 } ∧
      exec (.desEnc 2) s = .next { s with block := desBlock s.block s.ks3 .encrypt, err := 0 })

/-- R96: DES.DEC at each of its slots, its words, and the other words of its OP. -/
def Obligations.DesDecFollowsItsRule : Prop :=
  (decode 0x00000003 = .ok (.desDec 0) ∧ decode 0x00000013 = .ok (.desDec 1) ∧ decode 0x00000023 = .ok (.desDec 2)) ∧
  ∀ s : State,
    (∀ w : Word, w.extractLsb' 0 4 = 3 → w ≠ 0x00000003 → w ≠ 0x00000013 → w ≠ 0x00000023 →
      execute w s = .next { s with err := 4 }) ∧
    (s.ksv = false → ∀ slot : BitVec 2, slot ≠ 3 → exec (.desDec slot) s = .next { s with err := 5 }) ∧
    (s.ksv = true →
      exec (.desDec 0) s = .next { s with block := desBlock s.block s.ks1 .decrypt, err := 0 } ∧
      exec (.desDec 1) s = .next { s with block := desBlock s.block s.ks2 .decrypt, err := 0 } ∧
      exec (.desDec 2) s = .next { s with block := desBlock s.block s.ks3 .decrypt, err := 0 })

/-- R107: TDES.EBLK. -/
def Obligations.TdesEblkFollowsItsRule : Prop :=
  decode 0x00000004 = .ok .tdesEblk ∧
  ∀ s : State,
    (∀ w : Word, w.extractLsb' 0 4 = 4 → w ≠ 0x00000004 →
      execute w s = .next { s with err := 4 }) ∧
    (s.ksv = false → exec .tdesEblk s = .next { s with err := 5 }) ∧
    (s.ksv = true → exec .tdesEblk s = .next { s with
      block := desBlock (desBlock (desBlock s.block s.ks1 .encrypt) s.ks2 .decrypt) s.ks3 .encrypt
      err := 0 })

/-- R108: TDES.DBLK. -/
def Obligations.TdesDblkFollowsItsRule : Prop :=
  decode 0x00000005 = .ok .tdesDblk ∧
  ∀ s : State,
    (∀ w : Word, w.extractLsb' 0 4 = 5 → w ≠ 0x00000005 →
      execute w s = .next { s with err := 4 }) ∧
    (s.ksv = false → exec .tdesDblk s = .next { s with err := 5 }) ∧
    (s.ksv = true → exec .tdesDblk s = .next { s with
      block := desBlock (desBlock (desBlock s.block s.ks3 .decrypt) s.ks2 .encrypt) s.ks1 .decrypt
      err := 0 })

/-- R109: TDES.ENC. n, pad and m are the rule's; K1, K2 and K3 are the keys in memory. The output is stated block by
block as memory holds it afterwards, and every byte outside it is as before. -/
def Obligations.TdesEncFollowsItsRule : Prop :=
  decode 0x00000006 = .ok .tdesEnc ∧
  ∀ s : State,
    (∀ w : Word, w.extractLsb' 0 4 = 6 → w ≠ 0x00000006 →
      execute w s = .next { s with err := 4 }) ∧
    (s.keyLen ≠ 24 → exec .tdesEnc s = .next { s with err := 1 }) ∧
    ∀ n pad m : Nat, n = s.srcLen.toNat → pad = 8 - n % 8 → m = n + pad →
    ∀ K1 K2 K3 : Block, K1 = blockOfBytes (readBytes s s.keyAddr.toNat 8) →
      K2 = blockOfBytes (readBytes s (s.keyAddr.toNat + 8) 8) →
      K3 = blockOfBytes (readBytes s (s.keyAddr.toNat + 16) 8) →
    (s.keyLen = 24 →
      (s.cfg.memSize < s.keyAddr.toNat + 24 ∨ (n ≠ 0 ∧ s.cfg.memSize < s.srcAddr.toNat + n) ∨
        s.cfg.memSize < s.dstAddr.toNat + m) →
      exec .tdesEnc s = .next { s with err := 6 }) ∧
    (s.keyLen = 24 → s.keyAddr.toNat + 24 ≤ s.cfg.memSize → (n = 0 ∨ s.srcAddr.toNat + n ≤ s.cfg.memSize) →
      s.dstAddr.toNat + m ≤ s.cfg.memSize →
      ∃ t, exec .tdesEnc s = .next t ∧
        t = { s with
          mem := t.mem, dstLen := BitVec.ofNat 32 m
          key1 := K1, key2 := K2, key3 := K3
          ks1 := keySchedule K1, ks2 := keySchedule K2, ks3 := keySchedule K3
          ksv := true, err := 0 } ∧
        (∀ a, a < s.dstAddr.toNat ∨ s.dstAddr.toNat + m ≤ a → readByte t a = readByte s a) ∧
        (∀ j, j < m / 8 → blockOfBytes (readBytes t (s.dstAddr.toNat + 8 * j) 8) =
          tdesE (blockOfBytes
            ((readBytes s s.srcAddr.toNat n ++ List.replicate pad (BitVec.ofNat 8 pad)).drop (8 * j)))
            (keySchedule K1) (keySchedule K2) (keySchedule K3)))

/-- R110: TDES.DEC. D is the decrypted buffer, stated block by block; the output is its first n - pad bytes, and every
byte outside them is as before. -/
def Obligations.TdesDecFollowsItsRule : Prop :=
  decode 0x00000007 = .ok .tdesDec ∧
  ∀ s : State,
    (∀ w : Word, w.extractLsb' 0 4 = 7 → w ≠ 0x00000007 →
      execute w s = .next { s with err := 4 }) ∧
    (s.keyLen ≠ 24 → exec .tdesDec s = .next { s with err := 1 }) ∧
    ∀ n : Nat, n = s.srcLen.toNat →
    ∀ K1 K2 K3 : Block, K1 = blockOfBytes (readBytes s s.keyAddr.toNat 8) →
      K2 = blockOfBytes (readBytes s (s.keyAddr.toNat + 8) 8) →
      K3 = blockOfBytes (readBytes s (s.keyAddr.toNat + 16) 8) →
    ∀ (D : List Byte) (pad : Nat), D = decryptedBuffer s → pad = (D.getD (n - 1) 0).toNat →
    (n % 8 = 0 → D.length = n ∧
      ∀ j, j < n / 8 → blockOfBytes (D.drop (8 * j)) =
        tdesD (blockOfBytes (readBytes s (s.srcAddr.toNat + 8 * j) 8))
          (keySchedule K1) (keySchedule K2) (keySchedule K3)) ∧
    (s.keyLen = 24 → (n = 0 ∨ n % 8 ≠ 0) → exec .tdesDec s = .next { s with err := 2 }) ∧
    (s.keyLen = 24 → n ≠ 0 → n % 8 = 0 →
      (s.cfg.memSize < s.keyAddr.toNat + 24 ∨ s.cfg.memSize < s.srcAddr.toNat + n ∨
        s.cfg.memSize < s.dstAddr.toNat + n) →
      exec .tdesDec s = .next { s with err := 6 }) ∧
    (s.keyLen = 24 → n ≠ 0 → n % 8 = 0 → s.keyAddr.toNat + 24 ≤ s.cfg.memSize →
      s.srcAddr.toNat + n ≤ s.cfg.memSize → s.dstAddr.toNat + n ≤ s.cfg.memSize →
      (pad < 1 ∨ 8 < pad → exec .tdesDec s = .next { s with err := 3 }) ∧
      (1 ≤ pad → pad ≤ 8 →
        ∃ t, exec .tdesDec s = .next t ∧
          t = { s with
            mem := t.mem, dstLen := BitVec.ofNat 32 (n - pad)
            key1 := K1, key2 := K2, key3 := K3
            ks1 := keySchedule K1, ks2 := keySchedule K2, ks3 := keySchedule K3
            ksv := true, err := 0 } ∧
          (∀ a, a < s.dstAddr.toNat ∨ s.dstAddr.toNat + (n - pad) ≤ a → readByte t a = readByte s a) ∧
          readBytes t s.dstAddr.toNat (n - pad) = D.take (n - pad)))

/-! ## Errors and flags -/

/-- R130: the error a command reports is the first that applies, in the rule's order. -/
def Obligations.FirstApplicableErrorIsReported : Prop :=
  ∀ s : State,
    (∀ w r, decode w = .error r → ∃ t, execute w s = .next t ∧ t.err = 4) ∧
    (∃ t, exec .keyload s = .next t ∧ t.err =
      if s.keyLen ≠ 24 then 1 else if inRange s s.keyAddr.toNat 24 = false then 6 else 0) ∧
    (∀ i : Instr, i ∈ [.desEnc 0, .desEnc 1, .desEnc 2, .desDec 0, .desDec 1, .desDec 2, .tdesEblk, .tdesDblk] →
      ∃ t, exec i s = .next t ∧ t.err = if s.ksv = false then 5 else 0) ∧
    (∃ t, exec .tdesEnc s = .next t ∧ t.err =
      if s.keyLen ≠ 24 then 1
      else if inRange s s.keyAddr.toNat 24 = false ∨ inRange s s.srcAddr.toNat s.srcLen.toNat = false ∨
        inRange s s.dstAddr.toNat (s.srcLen.toNat + (8 - s.srcLen.toNat % 8)) = false then 6
      else 0) ∧
    (∃ t, exec .tdesDec s = .next t ∧ t.err =
      if s.keyLen ≠ 24 then 1
      else if s.srcLen.toNat = 0 ∨ s.srcLen.toNat % 8 ≠ 0 then 2
      else if inRange s s.keyAddr.toNat 24 = false ∨ inRange s s.srcAddr.toNat s.srcLen.toNat = false ∨
        inRange s s.dstAddr.toNat s.srcLen.toNat = false then 6
      else if ((decryptedBuffer s).getD (s.srcLen.toNat - 1) 0).toNat < 1 ∨
        8 < ((decryptedBuffer s).getD (s.srcLen.toNat - 1) 0).toNat then 3
      else 0)

/-- R131: a command that reports an error changes nothing but STATUS.ERR: any command, in any state, and any ILLEGAL
word. -/
def Obligations.FailedCommandsOnlySetErr : Prop :=
  (∀ (i : Instr) (s t : State), exec i s = .next t → t.err ≠ 0 → t = { s with err := t.err }) ∧
  (∀ (w : Word) (s t : State), execute w s = .next t → t.err ≠ 0 → t = { s with err := t.err })

/-- R118: the frame of every command that succeeds, by the rows of R57. What a failing command leaves is the first clause.
The buffer commands leave every memory byte outside [DST_ADDR, DST_ADDR + DST_LEN) as it was; that DST_LEN is the
length written needs MEM_SIZE <= 2^31 (R7). -/
def Obligations.CommandsWriteOnlyTheirOwnState : Prop :=
  (∀ (i : Instr) (s t : State), exec i s = .next t → t.err ≠ 0 → t = { s with err := t.err }) ∧
  (∀ s t : State, exec .keyload s = .next t → t = { s with
    key1 := t.key1, key2 := t.key2, key3 := t.key3, ks1 := t.ks1, ks2 := t.ks2, ks3 := t.ks3
    ksv := t.ksv, err := t.err }) ∧
  (∀ (slot : BitVec 2) (s t : State), exec (.desEnc slot) s = .next t ∨ exec (.desDec slot) s = .next t ∨
    exec .tdesEblk s = .next t ∨ exec .tdesDblk s = .next t → t = { s with block := t.block, err := t.err }) ∧
  (∀ s t : State, exec .tdesEnc s = .next t ∨ exec .tdesDec s = .next t →
    t = { s with
      mem := t.mem, dstLen := t.dstLen
      key1 := t.key1, key2 := t.key2, key3 := t.key3, ks1 := t.ks1, ks2 := t.ks2, ks3 := t.ks3
      ksv := t.ksv, err := t.err } ∧
    (s.cfg.legal = true → t.err = 0 →
      ∀ a, a < s.dstAddr.toNat ∨ s.dstAddr.toNat + t.dstLen.toNat ≤ a → readByte t a = readByte s a))

/-- R17: KSV becomes 1 on a successful KEYLOAD, TDES.ENC or TDES.DEC, only Reset clears it, and while it is 0 the block
commands fail with NO_KEY_SCHEDULE. -/
def Obligations.KsvIsSetByKeyLoadsAndClearedByReset : Prop :=
  (∀ (i : Instr) (s t : State), i ∈ [.keyload, .tdesEnc, .tdesDec] → exec i s = .next t → t.err = 0 → t.ksv = true) ∧
  (∀ s t : State, step s = .next t → s.ksv = true → t.ksv = false → s.program.head? = some .reset) ∧
  (∀ (s : State) (rest : List HostTxn), s.program = .reset :: rest → ∃ t, step s = .next t ∧ t.ksv = false) ∧
  (∀ (i : Instr) (s : State),
    i ∈ [.desEnc 0, .desEnc 1, .desEnc 2, .desDec 0, .desDec 1, .desDec 2, .tdesEblk, .tdesDblk] →
    s.ksv = false → exec i s = .next { s with err := 5 })

/-- R16: what a command reports does not depend on what ERR held (it is not sticky), and no transaction but a CMD write or
Reset changes ERR. -/
def Obligations.ErrIsNotSticky : Prop :=
  (∀ (w : Word) (e : BitVec 4) (s : State), execute w { s with err := e } = execute w s) ∧
  (∀ (s t : State) (x : HostTxn) (rest : List HostTxn), s.program = x :: rest → x.isCommand = false → x ≠ .reset →
    step s = .next t → t.err = s.err)

/-- R15: the fields of STATUS as the host reads it. -/
def Obligations.StatusWordFields : Prop :=
  ∀ s : State, (statusWord s).extractLsb' 0 4 = s.err ∧ (statusWord s).getLsbD 4 = s.ksv ∧
    (statusWord s).extractLsb' 5 27 = 0

/-! ## Host transactions -/

/-- R115: RegWrite, at every offset of the interface. The step also takes the transaction off the host's program and
advances the index of the free values (log entries 5 and 6). -/
def Obligations.RegWriteFollowsItsRule : Prop :=
  ∀ (s : State) (w : Word) (off : Nat) (rest : List HostTxn), s.program = .regWrite off w :: rest →
    ∀ u : State, u = { s with program := rest, epoch := s.epoch + 1 } →
    (off = 0x00 → step s = execute w u) ∧
    (off = 0x08 → step s = .next { u with keyAddr := w }) ∧
    (off = 0x0C → step s = .next { u with keyLen := w }) ∧
    (off = 0x10 → step s = .next { u with srcAddr := w }) ∧
    (off = 0x14 → step s = .next { u with srcLen := w }) ∧
    (off = 0x18 → step s = .next { u with dstAddr := w }) ∧
    (off = 0x20 → step s = .next { u with block := w ++ s.block.extractLsb' 0 32 }) ∧
    (off = 0x24 → step s = .next { u with block := s.block.extractLsb' 32 32 ++ w }) ∧
    (off = 0x04 ∨ off = 0x1C → step s = .next u) ∧
    (0x28 ≤ off → off % 4 = 0 → off ≤ 0xFFC → step s = .next u)

/-- R116: RegRead returns the register, and 0 for CMD and for unmapped offsets; nothing else of the engine changes. The
word goes to the host's list of responses (log entry 7). -/
def Obligations.RegReadFollowsItsRule : Prop :=
  ∀ (s : State) (off : Nat) (rest : List HostTxn), s.program = .regRead off :: rest → off % 4 = 0 → off ≤ 0xFFC →
    step s = .next { s with
      program := rest
      responses := .word
        (if off = 0x04 then statusWord s else if off = 0x08 then s.keyAddr else if off = 0x0C then s.keyLen
        else if off = 0x10 then s.srcAddr else if off = 0x14 then s.srcLen else if off = 0x18 then s.dstAddr
        else if off = 0x1C then s.dstLen else if off = 0x20 then s.block.extractLsb' 32 32
        else if off = 0x24 then s.block.extractLsb' 0 32 else 0) :: s.responses }

/-- R120: a register access of another width or alignment, or outside 0x000..0xFFC, is refused. Inside, an aligned offset
that holds no register is read as 0 and written with no effect. The model's own in this are the reading of R24 against
R43 and R120 on offsets that are no multiple of 4 (log entry 9), the transaction that stands for accesses of another
width (log entry 12), the index of the free values and the list of responses (log entries 5 and 7). -/
def Obligations.OtherRegisterAccessesAreRefused : Prop :=
  ∀ (s : State) (off : Nat) (w : Word) (rest : List HostTxn),
    (s.program = .regOtherWidth off :: rest → step s = .refused .registerAccessOutsideInterface) ∧
    (off % 4 ≠ 0 ∨ 0xFFC < off → s.program = .regWrite off w :: rest ∨ s.program = .regRead off :: rest →
      step s = .refused .registerAccessOutsideInterface) ∧
    (0x28 ≤ off → off % 4 = 0 → off ≤ 0xFFC →
      (s.program = .regWrite off w :: rest → step s = .next { s with program := rest, epoch := s.epoch + 1 }) ∧
      (s.program = .regRead off :: rest →
        step s = .next { s with program := rest, responses := .word 0 :: s.responses }))

/-- R119: MemWrite sets one byte and MemRead returns one; both need an address below MEM_SIZE and touch no register. The
index of the free values, the list of responses and the name of the stop are the model's (log entries 5, 7 and 10). -/
def Obligations.HostMemoryTransactions : Prop :=
  ∀ (s : State) (a : Nat) (b : Byte) (rest : List HostTxn),
    (s.program = .memWrite a b :: rest → a < s.cfg.memSize →
      ∃ t, step s = .next t ∧ t = { s with program := rest, epoch := s.epoch + 1, mem := t.mem } ∧
        readByte t a = b ∧ ∀ a', a' ≠ a → t.mem.lookup a' = s.mem.lookup a') ∧
    (s.program = .memRead a :: rest → a < s.cfg.memSize →
      step s = .next { s with program := rest, responses := .byte (readByte s a) :: s.responses }) ∧
    (s.program = .memWrite a b :: rest ∨ s.program = .memRead a :: rest → s.cfg.memSize ≤ a →
      step s = .fault .hostAddressOutsideMemory)

/-- R25, R27, R49, R144: the key registers and the schedules change only by a CMD write of KEYLOAD, TDES.ENC or TDES.DEC,
or by Reset; a write to memory, to the key bytes among them, leaves them. -/
def Obligations.OnlyKeyLoadsChangeTheKeys : Prop :=
  ∀ (s t : State) (x : HostTxn) (rest : List HostTxn), s.program = x :: rest → x.loadsKeys = false → x ≠ .reset →
    step s = .next t →
    t.key1 = s.key1 ∧ t.key2 = s.key2 ∧ t.key3 = s.key3 ∧ t.ks1 = s.ks1 ∧ t.ks2 = s.ks2 ∧ t.ks3 = s.ks3

/-- R32, R39, R141: buffer memory changes only by MemWrite or by a CMD write of TDES.ENC or TDES.DEC. -/
def Obligations.OnlyWritesChangeMemory : Prop :=
  ∀ (s t : State) (x : HostTxn) (rest : List HostTxn), s.program = x :: rest → x.writesMemory = false →
    step s = .next t → t.mem = s.mem

/-- R31, R135, R17: while KSV = 0 nothing the host can see depends on KEY1..3 and KS1..3: with any other contents of them,
the step stops the same way, or it ends in the same state, or in the same but for them and with KSV still 0. So the
values log entry 3 chooses at reset are unobservable. -/
def Obligations.KeyStateIsUnobservableWhileInvalid : Prop :=
  ∀ (s : State) (k1 k2 k3 : Block) (K1 K2 K3 : Schedule), s.ksv = false →
    (∀ r, step s = .fault r ↔ step (withKeyState k1 k2 k3 K1 K2 K3 s) = .fault r) ∧
    (∀ r, step s = .refused r ↔ step (withKeyState k1 k2 k3 K1 K2 K3 s) = .refused r) ∧
    (∀ t, step s = .next t → ∃ u, step (withKeyState k1 k2 k3 K1 K2 K3 s) = .next u ∧
      (u = t ∨ (t.ksv = false ∧ u = withKeyState k1 k2 k3 K1 K2 K3 t)))

/-- R60: the expansions of the pseudo-instructions. -/
def Obligations.PseudoInstructionExpansions : Prop :=
  lineCommand .keyload = [.regWrite 0x00 0x00000001] ∧
  (∀ k : Nat, 1 ≤ k → k ≤ 3 →
    lineCommand (.desEnc (BitVec.ofNat 2 (k - 1))) = [.regWrite 0x00 (0x00000002 ||| (BitVec.ofNat 32 (k - 1) <<< 4))] ∧
    lineCommand (.desDec (BitVec.ofNat 2 (k - 1))) = [.regWrite 0x00 (0x00000003 ||| (BitVec.ofNat 32 (k - 1) <<< 4))]) ∧
  lineCommand .tdesEblk = [.regWrite 0x00 0x00000004] ∧ lineCommand .tdesDblk = [.regWrite 0x00 0x00000005] ∧
  lineCommand .tdesEnc = [.regWrite 0x00 0x00000006] ∧ lineCommand .tdesDec = [.regWrite 0x00 0x00000007] ∧
  (∀ a : Word, lineSETKEY a = [.regWrite 0x08 a, .regWrite 0x0C 24, .regWrite 0x00 0x00000001]) ∧
  (∀ hi lo : Word, lineSETBLK hi lo = [.regWrite 0x20 hi, .regWrite 0x24 lo]) ∧
  (∀ k s n d : Word, lineENCBUF k s n d = [.regWrite 0x08 k, .regWrite 0x0C 24, .regWrite 0x10 s, .regWrite 0x14 n,
    .regWrite 0x18 d, .regWrite 0x00 0x00000006]) ∧
  (∀ k s n d : Word, lineDECBUF k s n d = [.regWrite 0x08 k, .regWrite 0x0C 24, .regWrite 0x10 s, .regWrite 0x14 n,
    .regWrite 0x18 d, .regWrite 0x00 0x00000007])

/-! ## Bits, buffers and permutations -/

/-- R8, R10, R40, R41: eight bytes as a block: position i of the block is bit i of the buffer, and bytes and bits are
inverse. -/
def Obligations.BlockBytesAndBits : Prop :=
  (∀ bs : List Byte, bs.length = 8 →
    (∀ i, 1 ≤ i → i ≤ 64 → bitAt (blockOfBytes bs) i = getBit bs i) ∧ bytesOfBlock (blockOfBytes bs) = bs) ∧
  (∀ v : Block, blockOfBytes (bytesOfBlock v) = v)

/-- R8, R65: the byte-buffer form of a `Bits n` value has its bits at positions 1..n and a zero tail. -/
def Obligations.BufferBitsAndZeroTail : Prop :=
  ∀ (n : Nat) (v : BitVec n), (toBuffer v).length = (n + 7) / 8 ∧
    (∀ i, 1 ≤ i → i ≤ n → getBit (toBuffer v) i = bitAt v i) ∧
    (∀ i, n < i → i ≤ 8 * ((n + 7) / 8) → getBit (toBuffer v) i = false)

/-- R62: putBit sets its one bit and no other, and keeps the buffer's length. -/
def Obligations.PutBitChangesOneBit : Prop :=
  ∀ (buf : List Byte) (idx : Nat) (val : Bool), 1 ≤ idx → idx ≤ 8 * buf.length →
    (putBit buf idx val).length = buf.length ∧ getBit (putBit buf idx val) idx = val ∧
    ∀ j, 1 ≤ j → j ≤ 8 * buf.length → j ≠ idx → getBit (putBit buf idx val) j = getBit buf j

/-- R64, R65: the source's byte-buffer permute is the permute on numbers, for every table of in-range positions. -/
def Obligations.PermuteBufferRefinesPermute : Prop :=
  ∀ (m n : Nat) (table : List Nat) (v : BitVec m), table.length = n → (∀ p ∈ table, 1 ≤ p ∧ p ≤ m) →
    permuteBuffer (toBuffer v) table n = toBuffer (permute table n v)

/-- R66: the seven tables have the sizes listed, and every entry is in 1..(input bits). -/
def Obligations.PermutationTablesAreInRange : Prop :=
  ∀ r ∈ ([(tableIP, 64, 64), (tableIPInv, 64, 64), (tablePC1C, 64, 28), (tablePC1D, 64, 28), (tablePC2, 56, 48),
      (tableE, 32, 48), (tableP, 32, 32)] : List (List Nat × Nat × Nat)),
    r.1.length = r.2.2 ∧ ∀ p ∈ r.1, 1 ≤ p ∧ p ≤ r.2.1

/-- R69: IP and IP^-1 are bijections on 1..64 and inverse, as tables and as permutations of any 64 bits, in both
orders. -/
def Obligations.InitialAndFinalPermutationsAreInverse : Prop :=
  (∀ i, 1 ≤ i → i ≤ 64 → tableIPInv.getD (tableIP.getD (i - 1) 0 - 1) 0 = i) ∧
  tableIP.Perm (List.range' 1 64) ∧ tableIPInv.Perm (List.range' 1 64) ∧
  ∀ x : Block, permute tableIPInv 64 (permute tableIP 64 x) = x ∧ permute tableIP 64 (permute tableIPInv 64 x) = x

/-! ## The key schedule -/

/-- R75: rotl28 as shifts of a number, and that rotations add up. -/
def Obligations.RotationClosedForm : Prop :=
  (∀ (v : KeyHalf) (k : Nat), k ≤ 28 → rotl28 v k = (v <<< k) ||| (v >>> (28 - k))) ∧
  (∀ (v : KeyHalf) (a b : Nat), rotl28 (rotl28 v a) b = rotl28 v ((a + b) % 28))

/-- R76: the shifts add up to 28, their partial sums are CUM, and sixteen rounds bring C and D back. -/
def Obligations.SixteenRotationsReturn : Prop :=
  shiftSchedule.count 1 = 4 ∧ shiftSchedule.count 2 = 12 ∧ shiftSchedule.sum = 28 ∧
  (∀ r, 1 ≤ r → r ≤ 16 → (shiftSchedule.take r).sum =
    [1, 2, 4, 6, 8, 10, 12, 14, 15, 17, 19, 21, 23, 25, 27, 28].getD (r - 1) 0) ∧
  ∀ v : KeyHalf, shiftSchedule.foldl rotl28 v = v

/-- R72, R74: the source's rotation of a key half in its 4-byte buffer is rotl28, and leaves the tail zero. -/
def Obligations.RotationBufferRefinesRotation : Prop :=
  ∀ (v : KeyHalf) (k : Nat), rotl28Buffer (toBuffer v) k = toBuffer (rotl28 v k)

/-- R78: the key schedule round by round: C and D start as the PC-1 halves, each round rotates what the round before
left, and K[r] is PC-2 of C followed by D. -/
def Obligations.KeyScheduleRoundByRound : Prop :=
  ∀ key : Block, ∃ C D : Nat → KeyHalf,
    C 0 = permute tablePC1C 28 key ∧ D 0 = permute tablePC1D 28 key ∧
    ∀ r, 1 ≤ r → r ≤ 16 →
      C r = rotl28 (C (r - 1)) (shiftSchedule.getD (r - 1) 0) ∧
      D r = rotl28 (D (r - 1)) (shiftSchedule.getD (r - 1) 0) ∧
      subkey (keySchedule key) r = permute tablePC2 48 (C r ++ D r)

/-- R79: the closed form of K[r]. -/
def Obligations.KeyScheduleClosedForm : Prop :=
  ∀ (key : Block) (r : Nat), 1 ≤ r → r ≤ 16 →
    subkey (keySchedule key) r = permute tablePC2 48
      (rotl28 (permute tablePC1C 28 key) ([1, 2, 4, 6, 8, 10, 12, 14, 15, 17, 19, 21, 23, 25, 27, 28].getD (r - 1) 0) ++
       rotl28 (permute tablePC1D 28 key) ([1, 2, 4, 6, 8, 10, 12, 14, 15, 17, 19, 21, 23, 25, 27, 28].getD (r - 1) 0))

/-- R71: PC-1 reads no position that is a multiple of 8, so keys that differ only in the low bit of each byte have the
same schedule, and no cipher result depends on those bits. -/
def Obligations.ParityBitsDoNotMatter : Prop :=
  (∀ p ∈ tablePC1C ++ tablePC1D, p % 8 ≠ 0) ∧
  ∀ key key' : Block, key &&& 0xFEFEFEFEFEFEFEFE = key' &&& 0xFEFEFEFEFEFEFEFE →
    keySchedule key = keySchedule key' ∧
    ∀ (x : Block) (dir : Direction), desBlock x (keySchedule key) dir = desBlock x (keySchedule key') dir

/-! ## The round function and the block cipher -/

/-- R81: every row of every box is a permutation of 0..15, and the boxes are eight of four rows. -/
def Obligations.SBoxRowsArePermutations : Prop :=
  tableS.length = 8 ∧ ∀ box ∈ tableS, box.length = 4 ∧ ∀ row ∈ box, row.Perm (List.range 16)

/-- R80: sBox reads the table at the row of the group's outer bits and the column of its middle bits, the group read as
the number of positions 6·idx+1 to 6·idx+6. -/
def Obligations.SBoxReadsItsGroup : Prop :=
  ∀ (x : BitVec 48) (idx g : Nat), idx < 8 → g = (x.toNat >>> (42 - 6 * idx)) % 64 →
    (sBox x idx).toNat = sBoxEntry idx (2 * (g / 32) + g % 2) (g / 2 % 16)

/-- R85, R86: f is P of the eight S-box results of E(R) xor K, S1's first. Bit by bit: position i of f(R, K) is position p
= P[i] of those results, which is bit 3 - (p-1) mod 4 of the box (p-1) div 4. The two values R85 works out follow. So f
depends on R and K only through E(R) xor K, and complementing both leaves it. -/
def Obligations.RoundFunctionDependsOnTheMix : Prop :=
  (∀ (R : Half) (K X : Subkey), X = permute tableE 48 R ^^^ K →
    roundF R K = permute tableP 32
      (sBox X 0 ++ sBox X 1 ++ sBox X 2 ++ sBox X 3 ++ sBox X 4 ++ sBox X 5 ++ sBox X 6 ++ sBox X 7) ∧
    ∀ i p : Nat, 1 ≤ i → i ≤ 32 → p = tableP.getD (i - 1) 0 →
      bitAt (roundF R K) i = (sBox X ((p - 1) / 4)).getLsbD (3 - (p - 1) % 4)) ∧
  (roundF 0x00000000 0x000000000000 = 0xD8D8DBBC ∧ roundF 0xF0AAF0AA 0x1B02EFFC7072 = 0x234AA9BB) ∧
  (∀ (R R' : Half) (K K' : Subkey), permute tableE 48 R ^^^ K = permute tableE 48 R' ^^^ K' → roundF R K = roundF R' K') ∧
  (∀ (R : Half) (K : Subkey), roundF (R ^^^ 0xFFFFFFFF) (K ^^^ 0xFFFFFFFFFFFF) = roundF R K)

/-- R87 to R91: desBlock round by round: the halves of IP(block), sixteen rounds that swap, the last included, with the
subkeys ascending or descending, and IP^-1 of R16 followed by L16. -/
def Obligations.DesBlockRoundByRound : Prop :=
  ∀ (x : Block) (K : Schedule) (dir : Direction), ∃ L R : Nat → Half,
    L 0 = (permute tableIP 64 x).extractLsb' 32 32 ∧ R 0 = (permute tableIP 64 x).extractLsb' 0 32 ∧
    (∀ r, 1 ≤ r → r ≤ 16 →
      L r = R (r - 1) ∧
      R r = L (r - 1) ^^^ roundF (R (r - 1)) (if dir = .encrypt then subkey K r else subkey K (17 - r))) ∧
    desBlock x K dir = permute tableIPInv 64 (R 16 ++ L 16)

/-- R92: decryption undoes encryption and the other way round, for every block and every key schedule. -/
def Obligations.DesBlockInverts : Prop :=
  ∀ (x : Block) (K : Schedule),
    desBlock (desBlock x K .encrypt) K .decrypt = x ∧ desBlock (desBlock x K .decrypt) K .encrypt = x

/-- R94: the complementation property. -/
def Obligations.DesBlockComplementation : Prop :=
  ∀ (x key : Block) (dir : Direction),
    desBlock (~~~x) (keySchedule (~~~key)) dir = ~~~(desBlock x (keySchedule key) dir)

/-- R99: tdesD undoes tdesE and the other way round, for every three schedules. -/
def Obligations.TripleDesInverts : Prop :=
  ∀ (x : Block) (KA KB KC : Schedule),
    tdesD (tdesE x KA KB KC) KA KB KC = x ∧ tdesE (tdesD x KA KB KC) KA KB KC = x

/-- R100: Triple-DES with equal keys is single DES, and with K1 = K2 it is encryption under K3. -/
def Obligations.TripleDesDegenerates : Prop :=
  (∀ (x : Block) (K : Schedule), tdesE x K K K = desBlock x K .encrypt ∧ tdesD x K K K = desBlock x K .decrypt) ∧
  (∀ (x : Block) (K KC : Schedule), tdesE x K K KC = desBlock x KC .encrypt)

/-! ## Buffers -/

/-- R103, R104: the pad length and the padded buffer. -/
def Obligations.PaddingFollowsItsRules : Prop :=
  (∀ n : Nat, padLength n = 8 - n % 8 ∧ 1 ≤ padLength n ∧ padLength n ≤ 8 ∧ (padLength n = 8 ↔ n % 8 = 0)) ∧
  (∀ src : List Byte,
    (padded src).length = src.length + padLength src.length ∧ (padded src).length % 8 = 0 ∧
    (padded src).take src.length = src ∧
    ∀ b ∈ (padded src).drop src.length, b.toNat = padLength src.length)

/-- R105: depadding reads the last byte only. -/
def Obligations.DepaddingFollowsItsRule : Prop :=
  ∀ (front : List Byte) (last : Byte),
    (last.toNat < 1 ∨ 8 < last.toNat → depadded (front ++ [last]) = none) ∧
    (1 ≤ last.toNat → last.toNat ≤ 8 →
      depadded (front ++ [last]) = some ((front ++ [last]).take (front.length + 1 - last.toNat)))

/-- R37: a buffer command's result does not depend on where the key, source and destination ranges lie: from two states
with the same key bytes, source bytes and lengths, wherever they stand and however they overlap, that do not fail the
address check, it reports the same outcome, and where it succeeds it leaves the same output bytes, DST_LEN and keys. -/
def Obligations.BufferResultsIgnorePlacement : Prop :=
  ∀ (i : Instr) (s s' t t' : State), i = .tdesEnc ∨ i = .tdesDec →
    s.keyLen = s'.keyLen → readBytes s s.keyAddr.toNat 24 = readBytes s' s'.keyAddr.toNat 24 →
    s.srcLen = s'.srcLen →
    readBytes s s.srcAddr.toNat s.srcLen.toNat = readBytes s' s'.srcAddr.toNat s'.srcLen.toNat →
    s.cfg.legal = true →
    exec i s = .next t → t.err ≠ 6 → exec i s' = .next t' → t'.err ≠ 6 →
    t.err = t'.err ∧
    (t.err = 0 →
      t.dstLen = t'.dstLen ∧
      readBytes t s.dstAddr.toNat t.dstLen.toNat = readBytes t' s'.dstAddr.toNat t.dstLen.toNat ∧
      t.key1 = t'.key1 ∧ t.key2 = t'.key2 ∧ t.key3 = t'.key3 ∧ t.ks1 = t'.ks1 ∧ t.ks2 = t'.ks2 ∧ t.ks3 = t'.ks3)

/-- R112: the length a successful TDES.ENC reports. -/
def Obligations.EncryptedLengthIsPadded : Prop :=
  ∀ s t : State, s.cfg.legal = true → exec .tdesEnc s = .next t → t.err = 0 →
    t.dstLen.toNat % 8 = 0 ∧ s.srcLen.toNat < t.dstLen.toNat ∧ t.dstLen.toNat ≤ s.srcLen.toNat + 8

/-- R113: electronic codebook: an output block depends on its own input block and the key alone, at any index, in any two
runs: in memory after two TDES.ENC that succeed, and for TDES.DEC before depadding. -/
def Obligations.BlocksAreIndependent : Prop :=
  ∀ (s s' : State) (j j' : Nat),
    readBytes s s.keyAddr.toNat 24 = readBytes s' s'.keyAddr.toNat 24 →
    (∀ t t' : State, exec .tdesEnc s = .next t → t.err = 0 → exec .tdesEnc s' = .next t' → t'.err = 0 →
      j < (padded (sourceOperand s)).length / 8 → j' < (padded (sourceOperand s')).length / 8 →
      ((padded (sourceOperand s)).drop (8 * j)).take 8 = ((padded (sourceOperand s')).drop (8 * j')).take 8 →
      readBytes t (s.dstAddr.toNat + 8 * j) 8 = readBytes t' (s'.dstAddr.toNat + 8 * j') 8) ∧
    (j < s.srcLen.toNat / 8 → j' < s'.srcLen.toNat / 8 →
      ((sourceOperand s).drop (8 * j)).take 8 = ((sourceOperand s').drop (8 * j')).take 8 →
      ((decryptedBuffer s).drop (8 * j)).take 8 = ((decryptedBuffer s').drop (8 * j')).take 8)

/-- R111: the round trip: after a successful TDES.ENC of s into t, a TDES.DEC in any state u with the same key bytes, the
output of t as its source and ranges that pass the address check succeeds, and gives back the plaintext and its
length. -/
def Obligations.DecryptionReturnsThePlaintext : Prop :=
  ∀ s t u : State, s.cfg.legal = true → exec .tdesEnc s = .next t → t.err = 0 →
    u.keyLen = 24 → readBytes u u.keyAddr.toNat 24 = readBytes s s.keyAddr.toNat 24 →
    u.srcLen = t.dstLen →
    readBytes u u.srcAddr.toNat u.srcLen.toNat = readBytes t s.dstAddr.toNat t.dstLen.toNat →
    inRange u u.keyAddr.toNat 24 = true → inRange u u.srcAddr.toNat u.srcLen.toNat = true →
    inRange u u.dstAddr.toNat u.srcLen.toNat = true →
    ∃ v, exec .tdesDec u = .next v ∧ v.err = 0 ∧ v.dstLen = s.srcLen ∧
      readBytes v u.dstAddr.toNat s.srcLen.toNat = readBytes s s.srcAddr.toNat s.srcLen.toNat
end

