-- ==== Sys2Proof/Laws/State.lean ====
section
/-!
SUPPORT. One lemma per field per update of the state, so that no later proof unfolds a record update.
-/

namespace Sys2Proof.Machine

/-! ### setErr -/

@[simp] theorem setErr_err (c : ErrCode) (s : State) : (setErr c s).err = errNumber c := rfl
@[simp] theorem setErr_ksv (c : ErrCode) (s : State) : (setErr c s).ksv = s.ksv := rfl
@[simp] theorem setErr_keyAddr (c : ErrCode) (s : State) : (setErr c s).keyAddr = s.keyAddr := rfl
@[simp] theorem setErr_keyLen (c : ErrCode) (s : State) : (setErr c s).keyLen = s.keyLen := rfl
@[simp] theorem setErr_srcAddr (c : ErrCode) (s : State) : (setErr c s).srcAddr = s.srcAddr := rfl
@[simp] theorem setErr_srcLen (c : ErrCode) (s : State) : (setErr c s).srcLen = s.srcLen := rfl
@[simp] theorem setErr_dstAddr (c : ErrCode) (s : State) : (setErr c s).dstAddr = s.dstAddr := rfl
@[simp] theorem setErr_dstLen (c : ErrCode) (s : State) : (setErr c s).dstLen = s.dstLen := rfl
@[simp] theorem setErr_block (c : ErrCode) (s : State) : (setErr c s).block = s.block := rfl
@[simp] theorem setErr_key1 (c : ErrCode) (s : State) : (setErr c s).key1 = s.key1 := rfl
@[simp] theorem setErr_key2 (c : ErrCode) (s : State) : (setErr c s).key2 = s.key2 := rfl
@[simp] theorem setErr_key3 (c : ErrCode) (s : State) : (setErr c s).key3 = s.key3 := rfl
@[simp] theorem setErr_ks1 (c : ErrCode) (s : State) : (setErr c s).ks1 = s.ks1 := rfl
@[simp] theorem setErr_ks2 (c : ErrCode) (s : State) : (setErr c s).ks2 = s.ks2 := rfl
@[simp] theorem setErr_ks3 (c : ErrCode) (s : State) : (setErr c s).ks3 = s.ks3 := rfl
@[simp] theorem setErr_mem (c : ErrCode) (s : State) : (setErr c s).mem = s.mem := rfl
@[simp] theorem setErr_cfg (c : ErrCode) (s : State) : (setErr c s).cfg = s.cfg := rfl
@[simp] theorem setErr_program (c : ErrCode) (s : State) : (setErr c s).program = s.program := rfl
@[simp] theorem setErr_responses (c : ErrCode) (s : State) : (setErr c s).responses = s.responses := rfl
@[simp] theorem setErr_epoch (c : ErrCode) (s : State) : (setErr c s).epoch = s.epoch := rfl

/-! ### setKsv -/

@[simp] theorem setKsv_err (s : State) : (setKsv s).err = s.err := rfl
@[simp] theorem setKsv_ksv (s : State) : (setKsv s).ksv = true := rfl
@[simp] theorem setKsv_keyAddr (s : State) : (setKsv s).keyAddr = s.keyAddr := rfl
@[simp] theorem setKsv_keyLen (s : State) : (setKsv s).keyLen = s.keyLen := rfl
@[simp] theorem setKsv_srcAddr (s : State) : (setKsv s).srcAddr = s.srcAddr := rfl
@[simp] theorem setKsv_srcLen (s : State) : (setKsv s).srcLen = s.srcLen := rfl
@[simp] theorem setKsv_dstAddr (s : State) : (setKsv s).dstAddr = s.dstAddr := rfl
@[simp] theorem setKsv_dstLen (s : State) : (setKsv s).dstLen = s.dstLen := rfl
@[simp] theorem setKsv_block (s : State) : (setKsv s).block = s.block := rfl
@[simp] theorem setKsv_key1 (s : State) : (setKsv s).key1 = s.key1 := rfl
@[simp] theorem setKsv_key2 (s : State) : (setKsv s).key2 = s.key2 := rfl
@[simp] theorem setKsv_key3 (s : State) : (setKsv s).key3 = s.key3 := rfl
@[simp] theorem setKsv_ks1 (s : State) : (setKsv s).ks1 = s.ks1 := rfl
@[simp] theorem setKsv_ks2 (s : State) : (setKsv s).ks2 = s.ks2 := rfl
@[simp] theorem setKsv_ks3 (s : State) : (setKsv s).ks3 = s.ks3 := rfl
@[simp] theorem setKsv_mem (s : State) : (setKsv s).mem = s.mem := rfl
@[simp] theorem setKsv_cfg (s : State) : (setKsv s).cfg = s.cfg := rfl
@[simp] theorem setKsv_program (s : State) : (setKsv s).program = s.program := rfl
@[simp] theorem setKsv_responses (s : State) : (setKsv s).responses = s.responses := rfl
@[simp] theorem setKsv_epoch (s : State) : (setKsv s).epoch = s.epoch := rfl

/-! ### setBlock -/

@[simp] theorem setBlock_err (x : Block) (s : State) : (setBlock x s).err = s.err := rfl
@[simp] theorem setBlock_ksv (x : Block) (s : State) : (setBlock x s).ksv = s.ksv := rfl
@[simp] theorem setBlock_keyAddr (x : Block) (s : State) : (setBlock x s).keyAddr = s.keyAddr := rfl
@[simp] theorem setBlock_keyLen (x : Block) (s : State) : (setBlock x s).keyLen = s.keyLen := rfl
@[simp] theorem setBlock_srcAddr (x : Block) (s : State) : (setBlock x s).srcAddr = s.srcAddr := rfl
@[simp] theorem setBlock_srcLen (x : Block) (s : State) : (setBlock x s).srcLen = s.srcLen := rfl
@[simp] theorem setBlock_dstAddr (x : Block) (s : State) : (setBlock x s).dstAddr = s.dstAddr := rfl
@[simp] theorem setBlock_dstLen (x : Block) (s : State) : (setBlock x s).dstLen = s.dstLen := rfl
@[simp] theorem setBlock_block (x : Block) (s : State) : (setBlock x s).block = x := rfl
@[simp] theorem setBlock_key1 (x : Block) (s : State) : (setBlock x s).key1 = s.key1 := rfl
@[simp] theorem setBlock_key2 (x : Block) (s : State) : (setBlock x s).key2 = s.key2 := rfl
@[simp] theorem setBlock_key3 (x : Block) (s : State) : (setBlock x s).key3 = s.key3 := rfl
@[simp] theorem setBlock_ks1 (x : Block) (s : State) : (setBlock x s).ks1 = s.ks1 := rfl
@[simp] theorem setBlock_ks2 (x : Block) (s : State) : (setBlock x s).ks2 = s.ks2 := rfl
@[simp] theorem setBlock_ks3 (x : Block) (s : State) : (setBlock x s).ks3 = s.ks3 := rfl
@[simp] theorem setBlock_mem (x : Block) (s : State) : (setBlock x s).mem = s.mem := rfl
@[simp] theorem setBlock_cfg (x : Block) (s : State) : (setBlock x s).cfg = s.cfg := rfl
@[simp] theorem setBlock_program (x : Block) (s : State) : (setBlock x s).program = s.program := rfl
@[simp] theorem setBlock_responses (x : Block) (s : State) : (setBlock x s).responses = s.responses := rfl
@[simp] theorem setBlock_epoch (x : Block) (s : State) : (setBlock x s).epoch = s.epoch := rfl

/-! ### setByte -/

@[simp] theorem setByte_err (a : Nat) (b : Byte) (s : State) : (setByte a b s).err = s.err := rfl
@[simp] theorem setByte_ksv (a : Nat) (b : Byte) (s : State) : (setByte a b s).ksv = s.ksv := rfl
@[simp] theorem setByte_keyAddr (a : Nat) (b : Byte) (s : State) : (setByte a b s).keyAddr = s.keyAddr := rfl
@[simp] theorem setByte_keyLen (a : Nat) (b : Byte) (s : State) : (setByte a b s).keyLen = s.keyLen := rfl
@[simp] theorem setByte_srcAddr (a : Nat) (b : Byte) (s : State) : (setByte a b s).srcAddr = s.srcAddr := rfl
@[simp] theorem setByte_srcLen (a : Nat) (b : Byte) (s : State) : (setByte a b s).srcLen = s.srcLen := rfl
@[simp] theorem setByte_dstAddr (a : Nat) (b : Byte) (s : State) : (setByte a b s).dstAddr = s.dstAddr := rfl
@[simp] theorem setByte_dstLen (a : Nat) (b : Byte) (s : State) : (setByte a b s).dstLen = s.dstLen := rfl
@[simp] theorem setByte_block (a : Nat) (b : Byte) (s : State) : (setByte a b s).block = s.block := rfl
@[simp] theorem setByte_key1 (a : Nat) (b : Byte) (s : State) : (setByte a b s).key1 = s.key1 := rfl
@[simp] theorem setByte_key2 (a : Nat) (b : Byte) (s : State) : (setByte a b s).key2 = s.key2 := rfl
@[simp] theorem setByte_key3 (a : Nat) (b : Byte) (s : State) : (setByte a b s).key3 = s.key3 := rfl
@[simp] theorem setByte_ks1 (a : Nat) (b : Byte) (s : State) : (setByte a b s).ks1 = s.ks1 := rfl
@[simp] theorem setByte_ks2 (a : Nat) (b : Byte) (s : State) : (setByte a b s).ks2 = s.ks2 := rfl
@[simp] theorem setByte_ks3 (a : Nat) (b : Byte) (s : State) : (setByte a b s).ks3 = s.ks3 := rfl
@[simp] theorem setByte_mem (a : Nat) (b : Byte) (s : State) : (setByte a b s).mem = s.mem.store a b := rfl
@[simp] theorem setByte_cfg (a : Nat) (b : Byte) (s : State) : (setByte a b s).cfg = s.cfg := rfl
@[simp] theorem setByte_program (a : Nat) (b : Byte) (s : State) : (setByte a b s).program = s.program := rfl
@[simp] theorem setByte_responses (a : Nat) (b : Byte) (s : State) : (setByte a b s).responses = s.responses := rfl
@[simp] theorem setByte_epoch (a : Nat) (b : Byte) (s : State) : (setByte a b s).epoch = s.epoch := rfl

/-! ### loadKeys -/

@[simp] theorem loadKeys_err (k : TripleKey) (s : State) : (loadKeys k s).err = s.err := rfl
@[simp] theorem loadKeys_ksv (k : TripleKey) (s : State) : (loadKeys k s).ksv = true := rfl
@[simp] theorem loadKeys_keyAddr (k : TripleKey) (s : State) : (loadKeys k s).keyAddr = s.keyAddr := rfl
@[simp] theorem loadKeys_keyLen (k : TripleKey) (s : State) : (loadKeys k s).keyLen = s.keyLen := rfl
@[simp] theorem loadKeys_srcAddr (k : TripleKey) (s : State) : (loadKeys k s).srcAddr = s.srcAddr := rfl
@[simp] theorem loadKeys_srcLen (k : TripleKey) (s : State) : (loadKeys k s).srcLen = s.srcLen := rfl
@[simp] theorem loadKeys_dstAddr (k : TripleKey) (s : State) : (loadKeys k s).dstAddr = s.dstAddr := rfl
@[simp] theorem loadKeys_dstLen (k : TripleKey) (s : State) : (loadKeys k s).dstLen = s.dstLen := rfl
@[simp] theorem loadKeys_block (k : TripleKey) (s : State) : (loadKeys k s).block = s.block := rfl
@[simp] theorem loadKeys_key1 (k : TripleKey) (s : State) : (loadKeys k s).key1 = k.k1 := rfl
@[simp] theorem loadKeys_key2 (k : TripleKey) (s : State) : (loadKeys k s).key2 = k.k2 := rfl
@[simp] theorem loadKeys_key3 (k : TripleKey) (s : State) : (loadKeys k s).key3 = k.k3 := rfl
@[simp] theorem loadKeys_ks1 (k : TripleKey) (s : State) : (loadKeys k s).ks1 = keySchedule k.k1 := rfl
@[simp] theorem loadKeys_ks2 (k : TripleKey) (s : State) : (loadKeys k s).ks2 = keySchedule k.k2 := rfl
@[simp] theorem loadKeys_ks3 (k : TripleKey) (s : State) : (loadKeys k s).ks3 = keySchedule k.k3 := rfl
@[simp] theorem loadKeys_mem (k : TripleKey) (s : State) : (loadKeys k s).mem = s.mem := rfl
@[simp] theorem loadKeys_cfg (k : TripleKey) (s : State) : (loadKeys k s).cfg = s.cfg := rfl
@[simp] theorem loadKeys_program (k : TripleKey) (s : State) : (loadKeys k s).program = s.program := rfl
@[simp] theorem loadKeys_responses (k : TripleKey) (s : State) : (loadKeys k s).responses = s.responses := rfl
@[simp] theorem loadKeys_epoch (k : TripleKey) (s : State) : (loadKeys k s).epoch = s.epoch := rfl

/-! ### storeOutput -/

@[simp] theorem storeOutput_err (out : List Byte) (s : State) : (storeOutput out s).err = s.err := rfl
@[simp] theorem storeOutput_ksv (out : List Byte) (s : State) : (storeOutput out s).ksv = s.ksv := rfl
@[simp] theorem storeOutput_keyAddr (out : List Byte) (s : State) : (storeOutput out s).keyAddr = s.keyAddr := rfl
@[simp] theorem storeOutput_keyLen (out : List Byte) (s : State) : (storeOutput out s).keyLen = s.keyLen := rfl
@[simp] theorem storeOutput_srcAddr (out : List Byte) (s : State) : (storeOutput out s).srcAddr = s.srcAddr := rfl
@[simp] theorem storeOutput_srcLen (out : List Byte) (s : State) : (storeOutput out s).srcLen = s.srcLen := rfl
@[simp] theorem storeOutput_dstAddr (out : List Byte) (s : State) : (storeOutput out s).dstAddr = s.dstAddr := rfl
@[simp] theorem storeOutput_dstLen (out : List Byte) (s : State) : (storeOutput out s).dstLen = BitVec.ofNat 32 out.length := rfl
@[simp] theorem storeOutput_block (out : List Byte) (s : State) : (storeOutput out s).block = s.block := rfl
@[simp] theorem storeOutput_key1 (out : List Byte) (s : State) : (storeOutput out s).key1 = s.key1 := rfl
@[simp] theorem storeOutput_key2 (out : List Byte) (s : State) : (storeOutput out s).key2 = s.key2 := rfl
@[simp] theorem storeOutput_key3 (out : List Byte) (s : State) : (storeOutput out s).key3 = s.key3 := rfl
@[simp] theorem storeOutput_ks1 (out : List Byte) (s : State) : (storeOutput out s).ks1 = s.ks1 := rfl
@[simp] theorem storeOutput_ks2 (out : List Byte) (s : State) : (storeOutput out s).ks2 = s.ks2 := rfl
@[simp] theorem storeOutput_ks3 (out : List Byte) (s : State) : (storeOutput out s).ks3 = s.ks3 := rfl
@[simp] theorem storeOutput_mem (out : List Byte) (s : State) : (storeOutput out s).mem = s.mem.storeBytes s.dstAddr.toNat out := rfl
@[simp] theorem storeOutput_cfg (out : List Byte) (s : State) : (storeOutput out s).cfg = s.cfg := rfl
@[simp] theorem storeOutput_program (out : List Byte) (s : State) : (storeOutput out s).program = s.program := rfl
@[simp] theorem storeOutput_responses (out : List Byte) (s : State) : (storeOutput out s).responses = s.responses := rfl
@[simp] theorem storeOutput_epoch (out : List Byte) (s : State) : (storeOutput out s).epoch = s.epoch := rfl

/-! ### respond -/

@[simp] theorem respond_err (r : Response) (s : State) : (respond r s).err = s.err := rfl
@[simp] theorem respond_ksv (r : Response) (s : State) : (respond r s).ksv = s.ksv := rfl
@[simp] theorem respond_keyAddr (r : Response) (s : State) : (respond r s).keyAddr = s.keyAddr := rfl
@[simp] theorem respond_keyLen (r : Response) (s : State) : (respond r s).keyLen = s.keyLen := rfl
@[simp] theorem respond_srcAddr (r : Response) (s : State) : (respond r s).srcAddr = s.srcAddr := rfl
@[simp] theorem respond_srcLen (r : Response) (s : State) : (respond r s).srcLen = s.srcLen := rfl
@[simp] theorem respond_dstAddr (r : Response) (s : State) : (respond r s).dstAddr = s.dstAddr := rfl
@[simp] theorem respond_dstLen (r : Response) (s : State) : (respond r s).dstLen = s.dstLen := rfl
@[simp] theorem respond_block (r : Response) (s : State) : (respond r s).block = s.block := rfl
@[simp] theorem respond_key1 (r : Response) (s : State) : (respond r s).key1 = s.key1 := rfl
@[simp] theorem respond_key2 (r : Response) (s : State) : (respond r s).key2 = s.key2 := rfl
@[simp] theorem respond_key3 (r : Response) (s : State) : (respond r s).key3 = s.key3 := rfl
@[simp] theorem respond_ks1 (r : Response) (s : State) : (respond r s).ks1 = s.ks1 := rfl
@[simp] theorem respond_ks2 (r : Response) (s : State) : (respond r s).ks2 = s.ks2 := rfl
@[simp] theorem respond_ks3 (r : Response) (s : State) : (respond r s).ks3 = s.ks3 := rfl
@[simp] theorem respond_mem (r : Response) (s : State) : (respond r s).mem = s.mem := rfl
@[simp] theorem respond_cfg (r : Response) (s : State) : (respond r s).cfg = s.cfg := rfl
@[simp] theorem respond_program (r : Response) (s : State) : (respond r s).program = s.program := rfl
@[simp] theorem respond_responses (r : Response) (s : State) : (respond r s).responses = r :: s.responses := rfl
@[simp] theorem respond_epoch (r : Response) (s : State) : (respond r s).epoch = s.epoch := rfl

/-! ### nextEpoch -/

@[simp] theorem nextEpoch_err (s : State) : (nextEpoch s).err = s.err := rfl
@[simp] theorem nextEpoch_ksv (s : State) : (nextEpoch s).ksv = s.ksv := rfl
@[simp] theorem nextEpoch_keyAddr (s : State) : (nextEpoch s).keyAddr = s.keyAddr := rfl
@[simp] theorem nextEpoch_keyLen (s : State) : (nextEpoch s).keyLen = s.keyLen := rfl
@[simp] theorem nextEpoch_srcAddr (s : State) : (nextEpoch s).srcAddr = s.srcAddr := rfl
@[simp] theorem nextEpoch_srcLen (s : State) : (nextEpoch s).srcLen = s.srcLen := rfl
@[simp] theorem nextEpoch_dstAddr (s : State) : (nextEpoch s).dstAddr = s.dstAddr := rfl
@[simp] theorem nextEpoch_dstLen (s : State) : (nextEpoch s).dstLen = s.dstLen := rfl
@[simp] theorem nextEpoch_block (s : State) : (nextEpoch s).block = s.block := rfl
@[simp] theorem nextEpoch_key1 (s : State) : (nextEpoch s).key1 = s.key1 := rfl
@[simp] theorem nextEpoch_key2 (s : State) : (nextEpoch s).key2 = s.key2 := rfl
@[simp] theorem nextEpoch_key3 (s : State) : (nextEpoch s).key3 = s.key3 := rfl
@[simp] theorem nextEpoch_ks1 (s : State) : (nextEpoch s).ks1 = s.ks1 := rfl
@[simp] theorem nextEpoch_ks2 (s : State) : (nextEpoch s).ks2 = s.ks2 := rfl
@[simp] theorem nextEpoch_ks3 (s : State) : (nextEpoch s).ks3 = s.ks3 := rfl
@[simp] theorem nextEpoch_mem (s : State) : (nextEpoch s).mem = s.mem := rfl
@[simp] theorem nextEpoch_cfg (s : State) : (nextEpoch s).cfg = s.cfg := rfl
@[simp] theorem nextEpoch_program (s : State) : (nextEpoch s).program = s.program := rfl
@[simp] theorem nextEpoch_responses (s : State) : (nextEpoch s).responses = s.responses := rfl
@[simp] theorem nextEpoch_epoch (s : State) : (nextEpoch s).epoch = s.epoch + 1 := rfl

/-! ### resetEngine -/

@[simp] theorem resetEngine_err (s : State) : (resetEngine s).err = 0 := rfl
@[simp] theorem resetEngine_ksv (s : State) : (resetEngine s).ksv = false := rfl
@[simp] theorem resetEngine_keyAddr (s : State) : (resetEngine s).keyAddr = 0 := rfl
@[simp] theorem resetEngine_keyLen (s : State) : (resetEngine s).keyLen = 0 := rfl
@[simp] theorem resetEngine_srcAddr (s : State) : (resetEngine s).srcAddr = 0 := rfl
@[simp] theorem resetEngine_srcLen (s : State) : (resetEngine s).srcLen = 0 := rfl
@[simp] theorem resetEngine_dstAddr (s : State) : (resetEngine s).dstAddr = 0 := rfl
@[simp] theorem resetEngine_dstLen (s : State) : (resetEngine s).dstLen = 0 := rfl
@[simp] theorem resetEngine_block (s : State) : (resetEngine s).block = 0 := rfl
@[simp] theorem resetEngine_key1 (s : State) : (resetEngine s).key1 = 0 := rfl
@[simp] theorem resetEngine_key2 (s : State) : (resetEngine s).key2 = 0 := rfl
@[simp] theorem resetEngine_key3 (s : State) : (resetEngine s).key3 = 0 := rfl
@[simp] theorem resetEngine_ks1 (s : State) : (resetEngine s).ks1 = zeroSchedule := rfl
@[simp] theorem resetEngine_ks2 (s : State) : (resetEngine s).ks2 = zeroSchedule := rfl
@[simp] theorem resetEngine_ks3 (s : State) : (resetEngine s).ks3 = zeroSchedule := rfl
@[simp] theorem resetEngine_mem (s : State) : (resetEngine s).mem = s.mem := rfl
@[simp] theorem resetEngine_cfg (s : State) : (resetEngine s).cfg = s.cfg := rfl
@[simp] theorem resetEngine_program (s : State) : (resetEngine s).program = s.program := rfl
@[simp] theorem resetEngine_responses (s : State) : (resetEngine s).responses = s.responses := rfl
@[simp] theorem resetEngine_epoch (s : State) : (resetEngine s).epoch = s.epoch := rfl

/-! ### commandNext -/

@[simp] theorem commandNext_err (w : Word) (s : State) : (commandNext w s).err = s.err := rfl
@[simp] theorem commandNext_ksv (w : Word) (s : State) : (commandNext w s).ksv = s.ksv := rfl
@[simp] theorem commandNext_keyAddr (w : Word) (s : State) : (commandNext w s).keyAddr = s.keyAddr := rfl
@[simp] theorem commandNext_keyLen (w : Word) (s : State) : (commandNext w s).keyLen = s.keyLen := rfl
@[simp] theorem commandNext_srcAddr (w : Word) (s : State) : (commandNext w s).srcAddr = s.srcAddr := rfl
@[simp] theorem commandNext_srcLen (w : Word) (s : State) : (commandNext w s).srcLen = s.srcLen := rfl
@[simp] theorem commandNext_dstAddr (w : Word) (s : State) : (commandNext w s).dstAddr = s.dstAddr := rfl
@[simp] theorem commandNext_dstLen (w : Word) (s : State) : (commandNext w s).dstLen = s.dstLen := rfl
@[simp] theorem commandNext_block (w : Word) (s : State) : (commandNext w s).block = s.block := rfl
@[simp] theorem commandNext_key1 (w : Word) (s : State) : (commandNext w s).key1 = s.key1 := rfl
@[simp] theorem commandNext_key2 (w : Word) (s : State) : (commandNext w s).key2 = s.key2 := rfl
@[simp] theorem commandNext_key3 (w : Word) (s : State) : (commandNext w s).key3 = s.key3 := rfl
@[simp] theorem commandNext_ks1 (w : Word) (s : State) : (commandNext w s).ks1 = s.ks1 := rfl
@[simp] theorem commandNext_ks2 (w : Word) (s : State) : (commandNext w s).ks2 = s.ks2 := rfl
@[simp] theorem commandNext_ks3 (w : Word) (s : State) : (commandNext w s).ks3 = s.ks3 := rfl
@[simp] theorem commandNext_mem (w : Word) (s : State) : (commandNext w s).mem = s.mem := rfl
@[simp] theorem commandNext_cfg (w : Word) (s : State) : (commandNext w s).cfg = s.cfg := rfl
@[simp] theorem commandNext_program (w : Word) (s : State) : (commandNext w s).program = .regWrite 0x00 w :: s.program := rfl
@[simp] theorem commandNext_responses (w : Word) (s : State) : (commandNext w s).responses = s.responses := rfl
@[simp] theorem commandNext_epoch (w : Word) (s : State) : (commandNext w s).epoch = s.epoch := rfl

/-! ### writeReg: what a register write leaves (R115) -/

@[simp] theorem writeReg_err (r : Reg) (w : Word) (s : State) : (writeReg r w s).err = s.err := by cases r <;> rfl
@[simp] theorem writeReg_ksv (r : Reg) (w : Word) (s : State) : (writeReg r w s).ksv = s.ksv := by cases r <;> rfl
@[simp] theorem writeReg_dstLen (r : Reg) (w : Word) (s : State) : (writeReg r w s).dstLen = s.dstLen := by cases r <;> rfl
@[simp] theorem writeReg_key1 (r : Reg) (w : Word) (s : State) : (writeReg r w s).key1 = s.key1 := by cases r <;> rfl
@[simp] theorem writeReg_key2 (r : Reg) (w : Word) (s : State) : (writeReg r w s).key2 = s.key2 := by cases r <;> rfl
@[simp] theorem writeReg_key3 (r : Reg) (w : Word) (s : State) : (writeReg r w s).key3 = s.key3 := by cases r <;> rfl
@[simp] theorem writeReg_ks1 (r : Reg) (w : Word) (s : State) : (writeReg r w s).ks1 = s.ks1 := by cases r <;> rfl
@[simp] theorem writeReg_ks2 (r : Reg) (w : Word) (s : State) : (writeReg r w s).ks2 = s.ks2 := by cases r <;> rfl
@[simp] theorem writeReg_ks3 (r : Reg) (w : Word) (s : State) : (writeReg r w s).ks3 = s.ks3 := by cases r <;> rfl
@[simp] theorem writeReg_mem (r : Reg) (w : Word) (s : State) : (writeReg r w s).mem = s.mem := by cases r <;> rfl
@[simp] theorem writeReg_cfg (r : Reg) (w : Word) (s : State) : (writeReg r w s).cfg = s.cfg := by cases r <;> rfl
@[simp] theorem writeReg_program (r : Reg) (w : Word) (s : State) : (writeReg r w s).program = s.program := by cases r <;> rfl
@[simp] theorem writeReg_responses (r : Reg) (w : Word) (s : State) : (writeReg r w s).responses = s.responses := by cases r <;> rfl
@[simp] theorem writeReg_epoch (r : Reg) (w : Word) (s : State) : (writeReg r w s).epoch = s.epoch := by cases r <;> rfl

end Sys2Proof.Machine
end

