-- ==== Sys2Proof/Laws/Memory.lean ====
section
/-!
SUPPORT. The laws of the buffer memory: what is read after a write, that every memory operation keeps the canonical
form and the address bound, and that equal contents are equal data.
-/

namespace Sys2Proof.Machine

/-! ## Reading after writing -/

@[simp] theorem Memory.lookup_store_self (m : Memory) (a : Nat) (b : Byte) : (m.store a b).lookup a = some b := by
  induction m with
  | nil => simp [Memory.store, Memory.lookup]
  | cons c rest ih =>
    obtain ⟨k, v⟩ := c
    simp only [Memory.store]
    split_ifs with h1 h2
    · simp [Memory.lookup]
    · simp [Memory.lookup]
    · simp only [Memory.lookup, ih]
      rw [if_neg (fun h => h2 h.symm)]

theorem Memory.lookup_store_ne (m : Memory) {a a' : Nat} (b : Byte) (h : a' ≠ a) :
    (m.store a b).lookup a' = m.lookup a' := by
  induction m with
  | nil => simp [Memory.store, Memory.lookup, h.symm]
  | cons c rest ih =>
    obtain ⟨k, v⟩ := c
    simp only [Memory.store]
    split_ifs with h1 h2
    · simp [Memory.lookup, h.symm]
    · simp [Memory.lookup, h.symm, ← h2]
    · simp [Memory.lookup, ih]

theorem Memory.lookup_storeBytes_outside (bs : List Byte) (a' : Nat) :
    ∀ (m : Memory) (a : Nat), (a' < a ∨ a + bs.length ≤ a') → (m.storeBytes a bs).lookup a' = m.lookup a' := by
  induction bs with
  | nil => intro m a _; rfl
  | cons b bs ih =>
    intro m a h
    simp only [List.length_cons] at h
    rw [Memory.storeBytes, ih _ _ (by omega), Memory.lookup_store_ne _ _ (by omega)]

theorem Memory.lookup_storeBytes_inside (bs : List Byte) :
    ∀ (m : Memory) (a k : Nat) (h : k < bs.length), (m.storeBytes a bs).lookup (a + k) = some bs[k] := by
  induction bs with
  | nil => intro m a k h; simp at h
  | cons b bs ih =>
    intro m a k h
    rw [Memory.storeBytes]
    cases k with
    | zero => simp [Memory.lookup_storeBytes_outside bs a _ (a + 1) (by omega)]
    | succ k =>
      simp only [List.length_cons] at h
      simpa [Nat.add_comm, Nat.add_left_comm] using ih (m.store a b) (a + 1) k (by omega)

/-! ## The canonical form -/

theorem Memory.risingFrom_mono (m : Memory) {low low' : Nat} (h : low' ≤ low) (hm : m.risingFrom low = true) :
    m.risingFrom low' = true := by
  cases m with
  | nil => rfl
  | cons c rest =>
    obtain ⟨k, v⟩ := c
    simp only [Memory.risingFrom, Bool.and_eq_true, decide_eq_true_eq] at hm ⊢
    exact ⟨h.trans hm.1, hm.2⟩

theorem Memory.store_risingFrom (m : Memory) (a : Nat) (b : Byte) :
    ∀ low, low ≤ a → m.risingFrom low = true → (m.store a b).risingFrom low = true := by
  induction m with
  | nil => intro low h _; simp [Memory.store, Memory.risingFrom, h]
  | cons c rest ih =>
    obtain ⟨k, v⟩ := c
    intro low h hm
    simp only [Memory.risingFrom, Bool.and_eq_true, decide_eq_true_eq] at hm
    simp only [Memory.store]
    split_ifs with h1 h2
    · simp [Memory.risingFrom, h, hm.2, Nat.succ_le_of_lt h1]
    · subst h2; simp [Memory.risingFrom, h, hm.2]
    · simp [Memory.risingFrom, hm.1, ih (k + 1) (by omega) hm.2]

/-- A byte write keeps the canonical form. -/
theorem Memory.store_wf (m : Memory) (a : Nat) (b : Byte) (h : m.wf = true) : (m.store a b).wf = true :=
  Memory.store_risingFrom m a b 0 (Nat.zero_le _) h

/-- A write of consecutive bytes keeps the canonical form. -/
theorem Memory.storeBytes_wf (bs : List Byte) : ∀ (m : Memory) (a : Nat), m.wf = true → (m.storeBytes a bs).wf = true := by
  induction bs with
  | nil => intro m a h; exact h
  | cons b bs ih => intro m a h; exact ih _ _ (Memory.store_wf m a b h)

theorem Memory.reset_wf : State.reset.mem.wf = true := rfl

theorem Memory.store_below (m : Memory) {size a : Nat} (b : Byte) (h : m.below size = true) (ha : a < size) :
    (m.store a b).below size = true := by
  induction m with
  | nil => simp [Memory.store, Memory.below, ha]
  | cons c rest ih =>
    obtain ⟨k, v⟩ := c
    simp only [Memory.below, List.all_cons, Bool.and_eq_true, decide_eq_true_eq] at h ih ⊢
    simp only [Memory.store]
    split_ifs with h1 h2
    · simp [ha, h.1, h.2]
    · simp [ha, h.2]
    · simp [h.1, ih h.2]

theorem Memory.storeBytes_below (bs : List Byte) {size : Nat} :
    ∀ (m : Memory) (a : Nat), m.below size = true → a + bs.length ≤ size → (m.storeBytes a bs).below size = true := by
  induction bs with
  | nil => intro m a h _; exact h
  | cons b bs ih =>
    intro m a h ha
    simp only [List.length_cons] at ha
    exact ih _ _ (Memory.store_below m b h (by omega)) (by omega)

/-- An address under the first one listed is not listed. -/
theorem Memory.lookup_of_lt (m : Memory) {low a : Nat} (h : m.risingFrom low = true) (ha : a < low) :
    m.lookup a = none := by
  induction m generalizing low with
  | nil => rfl
  | cons c rest ih =>
    obtain ⟨k, v⟩ := c
    simp only [Memory.risingFrom, Bool.and_eq_true, decide_eq_true_eq] at h
    rw [Memory.lookup, if_neg (by omega), ih h.2 (by omega)]

theorem Memory.ext_risingFrom (m : Memory) :
    ∀ (m' : Memory) (low : Nat), m.risingFrom low = true → m'.risingFrom low = true →
      (∀ a, m.lookup a = m'.lookup a) → m = m' := by
  induction m with
  | nil =>
    intro m' low _ hm' h
    cases m' with
    | nil => rfl
    | cons c rest => have := h c.1; simp [Memory.lookup] at this
  | cons c rest ih =>
    obtain ⟨k, v⟩ := c
    intro m' low hm hm' h
    cases m' with
    | nil => have := h k; simp [Memory.lookup] at this
    | cons c' rest' =>
      obtain ⟨k', v'⟩ := c'
      simp only [Memory.risingFrom, Bool.and_eq_true, decide_eq_true_eq] at hm hm'
      have hk : k = k' := by
        rcases Nat.lt_trichotomy k k' with hlt | heq | hgt
        · have := h k
          rw [Memory.lookup, if_pos rfl, Memory.lookup, if_neg (by omega),
            Memory.lookup_of_lt rest' hm'.2 (by omega)] at this
          cases this
        · exact heq
        · have := h k'
          rw [Memory.lookup, if_neg (by omega), Memory.lookup_of_lt rest hm.2 (by omega), Memory.lookup,
            if_pos rfl] at this
          cases this
      subst hk
      have hv : v = v' := by have := h k; simpa [Memory.lookup] using this
      subst hv
      refine congrArg _ (ih rest' (k + 1) hm.2 hm'.2 fun a => ?_)
      by_cases ha : a < k + 1
      · rw [Memory.lookup_of_lt rest hm.2 ha, Memory.lookup_of_lt rest' hm'.2 ha]
      · have := h a
        simpa [Memory.lookup, show k ≠ a by omega] using this

/-- Equal contents are equal data. -/
theorem Memory.ext {m m' : Memory} (hm : m.wf = true) (hm' : m'.wf = true) (h : ∀ a, m.lookup a = m'.lookup a) :
    m = m' :=
  Memory.ext_risingFrom m m' 0 hm hm' h

/-! ## Reading bytes -/

@[simp] theorem readBytes_length (s : State) (n : Nat) : ∀ a, (readBytes s a n).length = n := by
  induction n with
  | zero => intro a; rfl
  | succ n ih => intro a; simp [readBytes, ih]

theorem readBytes_getElem (s : State) (n : Nat) :
    ∀ (a k : Nat) (h : k < (readBytes s a n).length), (readBytes s a n)[k] = readByte s (a + k) := by
  induction n with
  | zero => intro a k h; simp [readBytes] at h
  | succ n ih =>
    intro a k h
    cases k with
    | zero => rfl
    | succ k =>
      simp only [readBytes, List.getElem_cons_succ, ih]
      congr 1
      omega

/-- What is read depends on the memory and on the index of the free values alone. -/
theorem readByte_congr {s t : State} (hm : t.mem = s.mem) (he : t.epoch = s.epoch) (a : Nat) :
    readByte t a = readByte s a := by
  simp [readByte, unwrittenByte, hm, he]

theorem readBytes_congr {s t : State} (h : ∀ a, readByte t a = readByte s a) (n : Nat) :
    ∀ a, readBytes t a n = readBytes s a n := by
  induction n with
  | zero => intro a; rfl
  | succ n ih => intro a; simp [readBytes, h, ih]

theorem readBytes_append (s : State) (m n : Nat) :
    ∀ a, readBytes s a (m + n) = readBytes s a m ++ readBytes s (a + m) n := by
  induction m with
  | zero => intro a; simp [readBytes]
  | succ m ih =>
    intro a
    rw [Nat.succ_add, readBytes, readBytes, ih, List.cons_append]
    congr 2
    ring_nf

theorem readBytes_drop (s : State) (a n k : Nat) (h : k ≤ n) :
    (readBytes s a n).drop k = readBytes s (a + k) (n - k) := by
  obtain ⟨j, rfl⟩ := Nat.exists_eq_add_of_le h
  simp [readBytes_append]

theorem readBytes_take (s : State) (a n k : Nat) (h : k ≤ n) : (readBytes s a n).take k = readBytes s a k := by
  obtain ⟨j, rfl⟩ := Nat.exists_eq_add_of_le h
  simp [readBytes_append]

/-- Reading back the bytes a buffer command has stored. -/
theorem readBytes_storeOutput (out : List Byte) (s : State) :
    readBytes (storeOutput out s) s.dstAddr.toNat out.length = out := by
  apply List.ext_getElem (by simp)
  intro k h1 h2
  rw [readBytes_getElem]
  simp [readByte, Memory.lookup_storeBytes_inside out s.mem s.dstAddr.toNat k h2]

theorem readByte_storeOutput_outside (out : List Byte) (s : State) (a : Nat)
    (h : a < s.dstAddr.toNat ∨ s.dstAddr.toNat + out.length ≤ a) :
    readByte (storeOutput out s) a = readByte s a := by
  simp [readByte, unwrittenByte, Memory.lookup_storeBytes_outside out a s.mem s.dstAddr.toNat h]

/-- InRange is the exact sum (R34). -/
@[simp] theorem inRange_iff (s : State) (a n : Nat) : inRange s a n = true ↔ n = 0 ∨ a + n ≤ s.cfg.memSize := by
  simp [inRange]

end Sys2Proof.Machine
end

