-- ==== Sys2Proof/Laws/Bits.lean ====
section
/-!
SUPPORT. The laws of the numbered bits: what one bit of a permuted value is, blocks as bytes and back, and the block
loop of the buffer commands.
-/

namespace Sys2Proof.Machine

/-! ## Numbers from bits, and permute -/

theorem numberOfBits_append (bs : List Bool) (b : Bool) :
    numberOfBits (bs ++ [b]) = 2 * numberOfBits bs + b.toNat := by
  simp [numberOfBits]

/-- Bit k of a number read from its bits is the k-th bit from the end. -/
theorem numberOfBits_testBit (bs : List Bool) :
    ∀ k, (numberOfBits bs).testBit k = bs.reverse.getD k false := by
  induction bs using List.reverseRecOn with
  | nil => intro k; simp [numberOfBits]
  | append_singleton bs b ih =>
    intro k
    rw [numberOfBits_append]
    cases k with
    | zero => cases b <;> simp
    | succ k => simpa [Nat.testBit_succ, Nat.mul_add_div, Nat.div_eq_of_lt b.toNat_lt] using ih k

/-- Position i of permute(v, T, n) is position T[i] of v (R64, R65). -/
theorem bitAt_permute {m n : Nat} (table : List Nat) (v : BitVec m) (hlen : table.length = n) {i : Nat} (h1 : 1 ≤ i)
    (hn : i ≤ n) : bitAt (permute table n v) i = bitAt v (table.getD (i - 1) 0) := by
  have hk : n - i < (table.map (bitAt v)).reverse.length := by simp; omega
  rw [bitAt, permute, BitVec.getLsbD_ofNat, numberOfBits_testBit, List.getD_eq_getElem _ _ hk, List.getElem_reverse]
  have hi : i - 1 < table.length := by omega
  rw [List.getD_eq_getElem _ _ hi]
  simp only [List.length_map, List.getElem_map, hlen]
  have : n - 1 - (n - i) = i - 1 := by omega
  simp [this, show n - i < n by omega]

/-- Two `Bits n` values with the same bits are the same. -/
theorem ext_bitAt {n : Nat} {v w : BitVec n} (h : ∀ i, 1 ≤ i → i ≤ n → bitAt v i = bitAt w i) : v = w := by
  apply BitVec.eq_of_getLsbD_eq
  intro k hk
  have := h (n - k) (by omega) (by omega)
  simpa [bitAt, show n - (n - k) = k by omega] using this

@[simp] theorem bitAt_xor {n : Nat} (v w : BitVec n) (i : Nat) : bitAt (v ^^^ w) i = (bitAt v i ^^ bitAt w i) := by
  simp [bitAt]

theorem bitAt_not {n : Nat} (v : BitVec n) {i : Nat} (h1 : 1 ≤ i) (hn : i ≤ n) : bitAt (~~~v) i = !bitAt v i := by
  simp [bitAt, show n - i < n by omega]

/-- Positions 1..m of a concatenation are the first part's. -/
theorem bitAt_append_left {m n : Nat} (v : BitVec m) (w : BitVec n) {i : Nat} (hm : i ≤ m) :
    bitAt (v ++ w) i = bitAt v i := by
  simp [bitAt, BitVec.getLsbD_append, show ¬ m + n - i < n by omega, show m + n - i - n = m - i by omega]

/-- Positions m+1..m+n of a concatenation are the second part's. -/
theorem bitAt_append_right {m n : Nat} (v : BitVec m) (w : BitVec n) {i : Nat} (h1 : 1 ≤ i) (hn : i ≤ n) :
    bitAt (v ++ w) (m + i) = bitAt w i := by
  simp [bitAt, BitVec.getLsbD_append, show m + n - (m + i) = n - i by omega, show n - i < n by omega]

/-! ## Blocks and bytes -/

@[simp] theorem bytesOfBlock_length (v : Block) : (bytesOfBlock v).length = 8 := rfl

theorem extract_append_left {m n : Nat} (x : BitVec m) (y : BitVec n) (k l : Nat) (h : n ≤ k) :
    (x ++ y).extractLsb' k l = x.extractLsb' (k - n) l := by
  apply BitVec.eq_of_getLsbD_eq
  intro j hj
  simp [BitVec.getLsbD_append, hj, show ¬ k + j < n by omega, show k + j - n = k - n + j by omega]

theorem extract_append_right {m n : Nat} (x : BitVec m) (y : BitVec n) (k l : Nat) (h : k + l ≤ n) :
    (x ++ y).extractLsb' k l = y.extractLsb' k l := by
  apply BitVec.eq_of_getLsbD_eq
  intro j hj
  simp [BitVec.getLsbD_append, hj, show k + j < n by omega]

theorem append_extract {w : Nat} (v : BitVec w) (k l l' : Nat) :
    v.extractLsb' (k + l') l ++ v.extractLsb' k l' = v.extractLsb' k (l + l') := by
  apply BitVec.eq_of_getLsbD_eq
  intro j hj
  simp only [BitVec.getLsbD_append, BitVec.getLsbD_extractLsb']
  by_cases h : j < l'
  · simp [h, hj]
  · simp [h, hj, show j - l' < l by omega, show k + l' + (j - l') = k + j by omega]

theorem extract_all {n : Nat} (v : BitVec n) : v.extractLsb' 0 n = v := by
  apply BitVec.eq_of_getLsbD_eq
  intro j hj
  simp [hj]

/-- bits(bytes(v)) = v. -/
@[simp] theorem blockOfBytes_bytesOfBlock (v : Block) (rest : List Byte) : blockOfBytes (bytesOfBlock v ++ rest) = v := by
  simp only [bytesOfBlock, blockOfBytes, List.cons_append, List.getD_cons_zero, List.getD_cons_succ]
  rw [append_extract v 48 8 8, append_extract v 40 16 8, append_extract v 32 24 8, append_extract v 24 32 8,
    append_extract v 16 40 8, append_extract v 8 48 8, append_extract v 0 56 8]
  exact extract_all v

theorem bytesOfBlock_blockOfBytes_cons (a b c d e f g h : Byte) (rest : List Byte) :
    bytesOfBlock (blockOfBytes (a :: b :: c :: d :: e :: f :: g :: h :: rest)) = [a, b, c, d, e, f, g, h] := by
  simp only [bytesOfBlock, blockOfBytes, List.getD_cons_zero, List.getD_cons_succ]
  simp (disch := omega) only [extract_append_left, extract_append_right, extract_all, Nat.reduceSub]

theorem exists_cons_of_le_length {α : Type} (bs : List α) (h : 8 ≤ bs.length) :
    ∃ a b c d e f g k rest, bs = a :: b :: c :: d :: e :: f :: g :: k :: rest := by
  match bs, h with
  | a :: b :: c :: d :: e :: f :: g :: k :: rest, _ => exact ⟨a, b, c, d, e, f, g, k, rest, rfl⟩

/-- bytes and bits are inverse on eight bytes. -/
theorem bytesOfBlock_blockOfBytes (bs : List Byte) (h : 8 ≤ bs.length) : bytesOfBlock (blockOfBytes bs) = bs.take 8 := by
  obtain ⟨a, b, c, d, e, f, g, k, rest, rfl⟩ := exists_cons_of_le_length bs h
  simp [bytesOfBlock_blockOfBytes_cons]

/-- Only the first eight bytes matter. -/
theorem blockOfBytes_take (bs : List Byte) : blockOfBytes (bs.take 8) = blockOfBytes bs := by
  simp [blockOfBytes, List.getD_eq_getElem?_getD]

/-! ## The block loop -/

@[simp] theorem mapBlocks_length (g : Block → Block) (n : Nat) : ∀ bs, (mapBlocks g n bs).length = 8 * n := by
  induction n with
  | zero => intro bs; rfl
  | succ n ih => intro bs; simp [mapBlocks, ih]; omega

/-- Block j of the output is the transformed block j of the input (R113). -/
theorem mapBlocks_block (g : Block → Block) (n : Nat) :
    ∀ bs j, j < n → blockOfBytes ((mapBlocks g n bs).drop (8 * j)) = g (blockOfBytes (bs.drop (8 * j))) := by
  induction n with
  | zero => intro bs j h; omega
  | succ n ih =>
    intro bs j h
    cases j with
    | zero => simp [mapBlocks]
    | succ j =>
      have hd : 8 * (j + 1) = 8 + 8 * j := by ring
      rw [mapBlocks, hd, ← List.drop_drop, List.drop_left' (by simp), ih _ _ (by omega), List.drop_drop]

/-- The block loops of two inverse block functions are inverse. -/
theorem mapBlocks_inverse {f g : Block → Block} (h : ∀ x, g (f x) = x) (n : Nat) :
    ∀ bs, 8 * n ≤ bs.length → mapBlocks g n (mapBlocks f n bs) = bs.take (8 * n) := by
  induction n with
  | zero => intro bs _; simp [mapBlocks]
  | succ n ih =>
    intro bs hb
    rw [mapBlocks, mapBlocks, blockOfBytes_bytesOfBlock, h, bytesOfBlock_blockOfBytes _ (by omega),
      List.drop_left' (by simp), ih _ (by simp; omega), ← List.take_add]
    congr 1
    ring

/-! ## One rotation, and one bit of a byte -/

/-- One bit of a single rotation: positions 2..28 move down and position 1 goes to 28 (R74). -/
theorem bitAt_rotl28One (v : KeyHalf) {j : Nat} (h1 : 1 ≤ j) (h28 : j ≤ 28) :
    bitAt (rotl28One v) j = if j = 28 then bitAt v 1 else bitAt v (j + 1) := by
  by_cases h : j = 28
  · subst h
    rw [if_pos rfl]
    change bitAt (v.extractLsb' 0 27 ++ v.extractLsb' 27 1) (27 + 1) = _
    rw [bitAt_append_right _ _ (by omega) (by omega)]
    simp [bitAt]
  · rw [if_neg h]
    change bitAt (v.extractLsb' 0 27 ++ v.extractLsb' 27 1) j = _
    rw [bitAt_append_left _ _ (by omega)]
    simp only [bitAt, BitVec.getLsbD_extractLsb', show 27 - j < 27 by omega, decide_true, Bool.true_and]
    congr 1
    omega

/-- Setting bit `k` of a byte sets that bit and no other. -/
theorem getLsbD_setByteBit (b : Byte) (k : Nat) (val : Bool) {j : Nat} (hj : j < 8) :
    (setByteBit b k val).getLsbD j = if j = k then val else b.getLsbD j := by
  have hmask : ((1 : Byte) <<< k).getLsbD j = decide (j = k) := by
    simp only [BitVec.getLsbD_shiftLeft, hj, decide_true, Bool.true_and]
    by_cases h : j = k
    · subst h; simp
    · simp [h]; omega
  cases val
  · simp only [setByteBit, Bool.false_eq_true, if_false, BitVec.getLsbD_and, BitVec.getLsbD_not, hj, decide_true,
      Bool.true_and, hmask]
    by_cases h : j = k <;> simp [h]
  · simp only [setByteBit, if_true, BitVec.getLsbD_or, hmask]
    by_cases h : j = k <;> simp [h]

/-! ## The S-box results side by side -/

/-- Position `p` of the eight S-box results is bit `3 - (p-1) % 4` of box `(p-1) / 4` (R82, R85). -/
theorem bitAt_substitute (x : BitVec 48) {p : Nat} (h1 : 1 ≤ p) (h32 : p ≤ 32) :
    bitAt (substitute x) p = (sBox x ((p - 1) / 4)).getLsbD (3 - (p - 1) % 4) := by
  change BitVec.getLsbD (w := 4 + 4 + 4 + 4 + 4 + 4 + 4 + 4)
    (sBox x 0 ++ sBox x 1 ++ sBox x 2 ++ sBox x 3 ++ sBox x 4 ++ sBox x 5 ++ sBox x 6 ++ sBox x 7) (32 - p) = _
  simp only [BitVec.getLsbD_append]
  interval_cases p <;> rfl

/-! ## Padding -/

theorem padLength_bounds (n : Nat) : 1 ≤ padLength n ∧ padLength n ≤ 8 ∧ (n + padLength n) % 8 = 0 := by
  simp only [padLength]
  omega

@[simp] theorem padded_length (src : List Byte) : (padded src).length = src.length + padLength src.length := by
  simp [padded]

end Sys2Proof.Machine
end

