-- ==== Sys2Proof/Laws/Commands.lean ====
section
/-!
SUPPORT. What each shared operation and each command can do, said once: proofs cite these lemmas and do not unfold the
operations.
-/

namespace Sys2Proof.Machine

/-! ## The shared operations -/

theorem raiseError_next {c : ErrCode} {s t : State} : raiseError c s = .next t ↔ t = setErr c s := by
  simp [raiseError, eq_comm]

theorem succeed_next {s t : State} : succeed s = .next t ↔ t = setErr .ok s := by
  simp [succeed, eq_comm]

theorem requireKeys_of_valid {k : State → Host.Outcome State Fault Refusal} {s : State} (h : s.ksv = true) :
    requireKeys k s = k s := by simp [requireKeys, h]

theorem requireKeys_of_invalid {k : State → Host.Outcome State Fault Refusal} {s : State} (h : s.ksv = false) :
    requireKeys k s = raiseError .noKeySchedule s := by simp [requireKeys, h]

theorem requireKeyLength_of_eq {k : State → Host.Outcome State Fault Refusal} {s : State} (h : s.keyLen = 24) :
    requireKeyLength k s = k s := by rw [requireKeyLength, if_pos h]

theorem requireKeyLength_of_ne {k : State → Host.Outcome State Fault Refusal} {s : State} (h : s.keyLen ≠ 24) :
    requireKeyLength k s = raiseError .invalidKeyLength s := by rw [requireKeyLength, if_neg h]

/-- The three slots, and the one that names no schedule (R54, R56). -/
theorem slotSchedule_cases (slot : BitVec 2) (s : State) :
    (slot = 0 ∧ slotSchedule slot s = some s.ks1) ∨ (slot = 1 ∧ slotSchedule slot s = some s.ks2) ∨
    (slot = 2 ∧ slotSchedule slot s = some s.ks3) ∨ (slot = 3 ∧ slotSchedule slot s = none) := by
  have h : slot = 0 ∨ slot = 1 ∨ slot = 2 ∨ slot = 3 := by revert slot; decide
  rcases h with rfl | rfl | rfl | rfl
  · exact .inl ⟨rfl, rfl⟩
  · exact .inr (.inl ⟨rfl, rfl⟩)
  · exact .inr (.inr (.inl ⟨rfl, rfl⟩))
  · exact .inr (.inr (.inr ⟨rfl, rfl⟩))

/-- Depadding answers exactly where the last byte is in 1..8 (R105). -/
theorem depadded_some {out res : List Byte} :
    depadded out = some res ↔ (1 ≤ statedPad out ∧ statedPad out ≤ 8) ∧ res = out.take (out.length - statedPad out) := by
  simp only [depadded]
  split_ifs with h
  · simp [h, eq_comm]
  · simp [h]

theorem depadded_none {out : List Byte} : depadded out = none ↔ ¬ (1 ≤ statedPad out ∧ statedPad out ≤ 8) := by
  simp [depadded]

@[simp] theorem sourceOperand_length (s : State) : (sourceOperand s).length = s.srcLen.toNat := by
  simp [sourceOperand]

@[simp] theorem encryptedOutput_length (s : State) : (encryptedOutput s).length = paddedLength s.srcLen.toNat := by
  have := (padLength_bounds s.srcLen.toNat).2.2
  simp only [encryptedOutput, mapBlocks_length, paddedLength]
  omega

@[simp] theorem decryptedBuffer_length (s : State) : (decryptedBuffer s).length = 8 * (s.srcLen.toNat / 8) := by
  simp [decryptedBuffer]

/-- The state a buffer command that succeeds ends in. -/
def bufferResult (out : List Byte) (s : State) : State := setErr .ok (loadKeys (keyOperand s) (storeOutput out s))

theorem finishBuffer_eq (out : List Byte) (s : State) : finishBuffer out s = .next (bufferResult out s) := rfl

/-! ## What each command can do -/

/-- The state a failing command ends in, and the state KEYLOAD ends in. -/
theorem execKeyload_cases {s t : State} (h : execKeyload s = .next t) :
    (s.keyLen ≠ 24 ∧ t = setErr .invalidKeyLength s) ∨
    (s.keyLen = 24 ∧ keyInRange s = false ∧ t = setErr .addressFault s) ∨
    (s.keyLen = 24 ∧ keyInRange s = true ∧ t = setErr .ok (loadKeys (keyOperand s) s)) := by
  by_cases hk : s.keyLen = 24
  · rw [execKeyload, requireKeyLength_of_eq hk] at h
    cases hr : keyInRange s
    · simp only [hr, Bool.false_eq_true, if_false, raiseError_next] at h
      exact .inr (.inl ⟨hk, rfl, h⟩)
    · simp only [hr, if_true, succeed_next] at h
      exact .inr (.inr ⟨hk, rfl, h⟩)
  · rw [execKeyload, requireKeyLength_of_ne hk, raiseError_next] at h
    exact .inl ⟨hk, h⟩

theorem desCommand_cases {dir : Direction} {slot : BitVec 2} {s t : State} (h : desCommand dir slot s = .next t) :
    (slot = 3 ∧ t = setErr .illegalCommand s) ∨
    (slot ≠ 3 ∧ s.ksv = false ∧ t = setErr .noKeySchedule s) ∨
    (∃ K, slotSchedule slot s = some K ∧ s.ksv = true ∧ t = setErr .ok (setBlock (desBlock s.block K dir) s)) := by
  have key : ∀ K, slotSchedule slot s = some K → slot ≠ 3 →
      (slot ≠ 3 ∧ s.ksv = false ∧ t = setErr .noKeySchedule s) ∨
      (∃ K, slotSchedule slot s = some K ∧ s.ksv = true ∧ t = setErr .ok (setBlock (desBlock s.block K dir) s)) := by
    intro K hK h3
    simp only [desCommand, hK] at h
    cases hv : s.ksv
    · rw [requireKeys_of_invalid hv, raiseError_next] at h
      exact .inl ⟨h3, rfl, h⟩
    · rw [requireKeys_of_valid hv, succeed_next] at h
      exact .inr ⟨K, hK, rfl, h⟩
  rcases slotSchedule_cases slot s with ⟨hs, hK⟩ | ⟨hs, hK⟩ | ⟨hs, hK⟩ | ⟨hs, hK⟩
  · exact .inr (key _ hK (by simp [hs]))
  · exact .inr (key _ hK (by simp [hs]))
  · exact .inr (key _ hK (by simp [hs]))
  · simp only [desCommand, hK, raiseError_next] at h
    exact .inl ⟨hs, h⟩

theorem execTdesEblk_cases {s t : State} (h : execTdesEblk s = .next t) :
    (s.ksv = false ∧ t = setErr .noKeySchedule s) ∨
    (s.ksv = true ∧ t = setErr .ok (setBlock (tdesE s.block s.ks1 s.ks2 s.ks3) s)) := by
  cases hv : s.ksv
  · rw [execTdesEblk, requireKeys_of_invalid hv, raiseError_next] at h
    exact .inl ⟨rfl, h⟩
  · rw [execTdesEblk, requireKeys_of_valid hv, succeed_next] at h
    exact .inr ⟨rfl, h⟩

theorem execTdesDblk_cases {s t : State} (h : execTdesDblk s = .next t) :
    (s.ksv = false ∧ t = setErr .noKeySchedule s) ∨
    (s.ksv = true ∧ t = setErr .ok (setBlock (tdesD s.block s.ks1 s.ks2 s.ks3) s)) := by
  cases hv : s.ksv
  · rw [execTdesDblk, requireKeys_of_invalid hv, raiseError_next] at h
    exact .inl ⟨rfl, h⟩
  · rw [execTdesDblk, requireKeys_of_valid hv, succeed_next] at h
    exact .inr ⟨rfl, h⟩

/-- The address check of TDES.ENC (R109). -/
def encRangesOk (s : State) : Bool :=
  keyInRange s && sourceInRange s && destinationInRange s (paddedLength s.srcLen.toNat)

/-- The address check of TDES.DEC (R110). -/
def decRangesOk (s : State) : Bool :=
  keyInRange s && sourceInRange s && destinationInRange s s.srcLen.toNat

theorem execTdesEnc_cases {s t : State} (h : execTdesEnc s = .next t) :
    (s.keyLen ≠ 24 ∧ t = setErr .invalidKeyLength s) ∨
    (s.keyLen = 24 ∧ encRangesOk s = false ∧ t = setErr .addressFault s) ∨
    (s.keyLen = 24 ∧ encRangesOk s = true ∧ t = bufferResult (encryptedOutput s) s) := by
  by_cases hk : s.keyLen = 24
  · rw [execTdesEnc, requireKeyLength_of_eq hk] at h
    change (if encRangesOk s = true then _ else _) = _ at h
    cases hr : encRangesOk s
    · simp only [hr, Bool.false_eq_true, if_false, raiseError_next] at h
      exact .inr (.inl ⟨hk, rfl, h⟩)
    · simp only [hr, if_true, finishBuffer_eq, Host.Outcome.next.injEq] at h
      exact .inr (.inr ⟨hk, rfl, h.symm⟩)
  · rw [execTdesEnc, requireKeyLength_of_ne hk, raiseError_next] at h
    exact .inl ⟨hk, h⟩

/-- A ciphertext length that TDES.DEC refuses (R125). -/
def badCiphertextLength (s : State) : Prop := s.srcLen.toNat = 0 ∨ s.srcLen.toNat % 8 ≠ 0

theorem execTdesDec_cases {s t : State} (h : execTdesDec s = .next t) :
    (s.keyLen ≠ 24 ∧ t = setErr .invalidKeyLength s) ∨
    (s.keyLen = 24 ∧ badCiphertextLength s ∧ t = setErr .invalidCiphertextLength s) ∨
    (s.keyLen = 24 ∧ ¬ badCiphertextLength s ∧ decRangesOk s = false ∧ t = setErr .addressFault s) ∨
    (s.keyLen = 24 ∧ ¬ badCiphertextLength s ∧ decRangesOk s = true ∧ depadded (decryptedBuffer s) = none ∧
      t = setErr .invalidPadding s) ∨
    (∃ out, s.keyLen = 24 ∧ ¬ badCiphertextLength s ∧ decRangesOk s = true ∧
      depadded (decryptedBuffer s) = some out ∧ t = bufferResult out s) := by
  by_cases hk : s.keyLen = 24
  · rw [execTdesDec, requireKeyLength_of_eq hk] at h
    right
    by_cases hb : badCiphertextLength s
    · have hb' : s.srcLen.toNat = 0 ∨ s.srcLen.toNat % 8 ≠ 0 := hb
      simp only [if_pos hb', raiseError_next] at h
      exact .inl ⟨hk, hb, h⟩
    · have hb' : ¬ (s.srcLen.toNat = 0 ∨ s.srcLen.toNat % 8 ≠ 0) := hb
      simp only [if_neg hb'] at h
      change (if decRangesOk s = true then _ else _) = _ at h
      cases hr : decRangesOk s
      · simp only [hr, Bool.false_eq_true, if_false, raiseError_next] at h
        exact .inr (.inl ⟨hk, hb, rfl, h⟩)
      · simp only [hr, if_true] at h
        cases hd : depadded (decryptedBuffer s) with
        | none =>
          simp only [hd, raiseError_next] at h
          exact .inr (.inr (.inl ⟨hk, hb, rfl, rfl, h⟩))
        | some out =>
          simp only [hd, finishBuffer_eq, Host.Outcome.next.injEq] at h
          exact .inr (.inr (.inr ⟨out, hk, hb, rfl, rfl, h.symm⟩))
  · rw [execTdesDec, requireKeyLength_of_ne hk, raiseError_next] at h
    exact .inl ⟨hk, h⟩

/-! ## The operands and the results, in equations -/

theorem keyOperand_k1 (s : State) : (keyOperand s).k1 = blockOfBytes (readBytes s s.keyAddr.toNat 8) := by
  rw [keyOperand, tripleKeyOfBytes, ← blockOfBytes_take, readBytes_take _ _ _ _ (by omega)]

theorem keyOperand_k2 (s : State) : (keyOperand s).k2 = blockOfBytes (readBytes s (s.keyAddr.toNat + 8) 8) := by
  simp only [keyOperand, tripleKeyOfBytes]
  rw [readBytes_drop _ _ _ _ (by omega), ← blockOfBytes_take, readBytes_take _ _ _ _ (by omega)]

theorem keyOperand_k3 (s : State) : (keyOperand s).k3 = blockOfBytes (readBytes s (s.keyAddr.toNat + 16) 8) := by
  simp only [keyOperand, tripleKeyOfBytes]
  rw [readBytes_drop _ _ _ _ (by omega)]

/-- Eight bytes within a range that is read. -/
theorem readBytes_block (s : State) (a n j : Nat) (h : 8 * j + 8 ≤ n) :
    readBytes s (a + 8 * j) 8 = ((readBytes s a n).drop (8 * j)).take 8 := by
  rw [readBytes_drop _ _ _ _ (by omega), readBytes_take _ _ _ _ (by omega)]

theorem execKeyload_eq {s : State} (hk : s.keyLen = 24) (hr : keyInRange s = true) :
    execKeyload s = .next (setErr .ok (loadKeys (keyOperand s) s)) := by
  rw [execKeyload, requireKeyLength_of_eq hk, if_pos hr]; rfl

theorem execTdesEnc_eq {s : State} (hk : s.keyLen = 24) (hr : encRangesOk s = true) :
    execTdesEnc s = .next (bufferResult (encryptedOutput s) s) := by
  rw [execTdesEnc, requireKeyLength_of_eq hk]
  exact if_pos hr

theorem execTdesEnc_addressFault {s : State} (hk : s.keyLen = 24) (hr : ¬ encRangesOk s = true) :
    execTdesEnc s = .next (setErr .addressFault s) := by
  rw [execTdesEnc, requireKeyLength_of_eq hk]
  exact if_neg hr

theorem execTdesDec_badLength {s : State} (hk : s.keyLen = 24) (hb : badCiphertextLength s) :
    execTdesDec s = .next (setErr .invalidCiphertextLength s) := by
  rw [execTdesDec, requireKeyLength_of_eq hk]
  exact if_pos hb

theorem execTdesDec_addressFault {s : State} (hk : s.keyLen = 24) (hb : ¬ badCiphertextLength s)
    (hr : ¬ decRangesOk s = true) : execTdesDec s = .next (setErr .addressFault s) := by
  rw [execTdesDec, requireKeyLength_of_eq hk]
  exact (if_neg hb).trans (if_neg hr)

theorem execTdesDec_badPadding {s : State} (hk : s.keyLen = 24) (hb : ¬ badCiphertextLength s)
    (hr : decRangesOk s = true) (hd : depadded (decryptedBuffer s) = none) :
    execTdesDec s = .next (setErr .invalidPadding s) := by
  rw [execTdesDec, requireKeyLength_of_eq hk]
  refine (if_neg hb).trans ((if_pos hr).trans ?_)
  simp only [hd]; rfl

theorem execTdesDec_eq {s : State} {out : List Byte} (hk : s.keyLen = 24) (hb : ¬ badCiphertextLength s)
    (hr : decRangesOk s = true) (hd : depadded (decryptedBuffer s) = some out) :
    execTdesDec s = .next (bufferResult out s) := by
  rw [execTdesDec, requireKeyLength_of_eq hk]
  refine (if_neg hb).trans ((if_pos hr).trans ?_)
  simp only [hd]; rfl

theorem readByte_bufferResult_outside (out : List Byte) (s : State) (a : Nat)
    (h : a < s.dstAddr.toNat ∨ s.dstAddr.toNat + out.length ≤ a) :
    readByte (bufferResult out s) a = readByte s a :=
  (readByte_congr rfl rfl a).trans (readByte_storeOutput_outside out s a h)

theorem readBytes_bufferResult (out : List Byte) (s : State) :
    readBytes (bufferResult out s) s.dstAddr.toNat out.length = out :=
  (readBytes_congr (t := bufferResult out s) (s := storeOutput out s) (fun a => readByte_congr rfl rfl a) _ _).trans
    (readBytes_storeOutput out s)

/-- A command word leaves the host, the parameters and the index of the free values alone. -/
theorem execute_keeps_host {w : Word} {s t : State} (h : execute w s = .next t) :
    t.program = s.program ∧ t.responses = s.responses ∧ t.cfg = s.cfg ∧ t.epoch = s.epoch := by
  simp only [execute] at h
  split at h
  · rename_i i _
    cases i with
    | keyload => rcases execKeyload_cases h with ⟨_, rfl⟩ | ⟨_, _, rfl⟩ | ⟨_, _, rfl⟩ <;> simp
    | desEnc slot => rcases desCommand_cases h with ⟨_, rfl⟩ | ⟨_, _, rfl⟩ | ⟨_, _, _, rfl⟩ <;> simp
    | desDec slot => rcases desCommand_cases h with ⟨_, rfl⟩ | ⟨_, _, rfl⟩ | ⟨_, _, _, rfl⟩ <;> simp
    | tdesEblk => rcases execTdesEblk_cases h with ⟨_, rfl⟩ | ⟨_, rfl⟩ <;> simp
    | tdesDblk => rcases execTdesDblk_cases h with ⟨_, rfl⟩ | ⟨_, rfl⟩ <;> simp
    | tdesEnc => rcases execTdesEnc_cases h with ⟨_, rfl⟩ | ⟨_, _, rfl⟩ | ⟨_, _, rfl⟩ <;> simp [bufferResult]
    | tdesDec =>
      rcases execTdesDec_cases h with ⟨_, rfl⟩ | ⟨_, _, rfl⟩ | ⟨_, _, _, rfl⟩ | ⟨_, _, _, _, rfl⟩ | ⟨_, _, _, _, _, rfl⟩ <;>
        simp [bufferResult]
  · rw [raiseError_next] at h; subst h; simp

/-! ## The step -/

theorem step_of_nil {s : State} (h : s.program = []) : step s = .next s := by
  simp [step, hostStep, h]

theorem step_of_cons {s : State} {t : HostTxn} {rest : List HostTxn} (h : s.program = t :: rest) :
    step s = transact t { s with program := rest } := by
  simp [step, hostStep, h]

/-- A CMD write runs the command word (R117). -/
theorem transact_command (w : Word) (s : State) : transact (.regWrite 0x00 w) s = execute w (nextEpoch s) := by
  simp [transact, regWrite, accessibleOffset, registerAt, writeRegister]

/-- An aligned register write inside the window that is no CMD write (R24, R115). -/
theorem transact_regWrite_cases {off : Nat} {w : Word} {s t : State} (h0 : off ≠ 0)
    (h : transact (.regWrite off w) s = .next t) : t = nextEpoch s ∨ ∃ r, r ≠ .cmd ∧ t = writeReg r w (nextEpoch s) := by
  simp only [transact, regWrite] at h
  split_ifs at h
  cases hr : registerAt off with
  | none => simp only [hr, Host.Outcome.next.injEq] at h; exact .inl h.symm
  | some r =>
    have hc : r ≠ .cmd := by
      rintro rfl
      unfold registerAt at hr
      split at hr <;> simp_all
    simp only [hr] at h
    cases r <;> first | exact absurd rfl hc | (simp only [writeRegister, Host.Outcome.next.injEq] at h; exact .inr ⟨_, hc, h.symm⟩)

/-- What one transaction can do (R114): the six kinds, with the outcome of each. -/
theorem transact_cases {x : HostTxn} {s t : State} (h : transact x s = .next t) :
    (∃ w, x = .regWrite 0x00 w ∧ execute w (nextEpoch s) = .next t) ∨
    (∃ off w, x = .regWrite off w ∧ off ≠ 0 ∧ (t = nextEpoch s ∨ ∃ r, r ≠ .cmd ∧ t = writeReg r w (nextEpoch s))) ∨
    (∃ off, x = .regRead off ∧ t = respond (.word (readOffset off s)) s) ∨
    (∃ a b, x = .memWrite a b ∧ a < s.cfg.memSize ∧ t = setByte a b (nextEpoch s)) ∨
    (∃ a, x = .memRead a ∧ a < s.cfg.memSize ∧ t = respond (.byte (readByte s a)) s) ∨
    (x = .reset ∧ t = resetEngine (nextEpoch s)) := by
  cases x with
  | regWrite off w =>
    by_cases h0 : off = 0
    · subst h0; exact .inl ⟨w, rfl, by rw [← transact_command]; exact h⟩
    · exact .inr (.inl ⟨off, w, rfl, h0, transact_regWrite_cases h0 h⟩)
  | regRead off =>
    simp only [transact, regRead] at h
    split_ifs at h
    rw [Host.Outcome.next.injEq] at h
    exact .inr (.inr (.inl ⟨off, rfl, h.symm⟩))
  | regOtherWidth off => simp [transact] at h
  | memWrite a b =>
    simp only [transact, hostMemWrite] at h
    split_ifs at h with ha
    rw [Host.Outcome.next.injEq] at h
    exact .inr (.inr (.inr (.inl ⟨a, b, rfl, ha, h.symm⟩)))
  | memRead a =>
    simp only [transact, hostMemRead] at h
    split_ifs at h with ha
    simp only [Host.Outcome.next.injEq] at h
    exact .inr (.inr (.inr (.inr (.inl ⟨a, rfl, ha, h.symm⟩))))
  | reset =>
    simp only [transact, Host.Outcome.next.injEq] at h
    exact .inr (.inr (.inr (.inr (.inr ⟨rfl, h.symm⟩))))

/-- What one step can do: nothing where the host's program has ended, else the next transaction (R122). -/
theorem step_cases {s t : State} (h : step s = .next t) :
    (s.program = [] ∧ t = s) ∨
    ∃ x rest, s.program = x :: rest ∧ transact x { s with program := rest } = .next t := by
  cases hp : s.program with
  | nil => rw [step_of_nil hp, Host.Outcome.next.injEq] at h; exact .inl ⟨rfl, h.symm⟩
  | cons x rest => rw [step_of_cons hp] at h; exact .inr ⟨x, rest, rfl, h⟩

end Sys2Proof.Machine
end

