-- ==== Sys2Proof/Laws/PerInstr.lean ====
section
/-!
SUPPORT. The family EncodedFields: the fields of each command's word are those of the opcode table (R52, R53). One lemma
per command.
-/

namespace Sys2Proof.Laws.EncodedFields

/-- The OP number of each command (R53). -/
def opNumber : Instr → BitVec 4
  | .keyload => 1
  | .desEnc _ => 2
  | .desDec _ => 3
  | .tdesEblk => 4
  | .tdesDblk => 5
  | .tdesEnc => 6
  | .tdesDec => 7

/-- What the SLOT field of each command's word is: its operand where it takes one, else 0 (R52). -/
def slotNumber : Instr → BitVec 2
  | .keyload => 0
  | .desEnc slot => slot
  | .desDec slot => slot
  | .tdesEblk => 0
  | .tdesDblk => 0
  | .tdesEnc => 0
  | .tdesDec => 0

/-- The three fields of the command's word (R52, R53). -/
def Statement (i : Instr) : Prop :=
  opField (encode i) = opNumber i ∧ slotField (encode i) = slotNumber i ∧ rsvField (encode i) = 0

theorem keyload : Statement .keyload := by unfold Statement; decide

theorem desEnc (slot : BitVec 2) : Statement (.desEnc slot) := by
  revert slot; unfold Statement; decide

theorem desDec (slot : BitVec 2) : Statement (.desDec slot) := by
  revert slot; unfold Statement; decide

theorem tdesEblk : Statement .tdesEblk := by unfold Statement; decide

theorem tdesDblk : Statement .tdesDblk := by unfold Statement; decide

theorem tdesEnc : Statement .tdesEnc := by unfold Statement; decide

theorem tdesDec : Statement .tdesDec := by unfold Statement; decide

end Sys2Proof.Laws.EncodedFields
end

