-- ==== Sys2Proof/Tests/Slice0.lean ====
section
/-!
SUPPORT. The model's own tests. Expected values are the spec's (95_test_vectors, by the row numbers given), and each
`witness_` theorem shows that the hypotheses of the obligation it is named after can be met together.
-/

namespace Sys2Proof.Tests

open Sys2Proof.Machine

/-! ## WellFormed: the one check refuses an ill-formed term -/

theorem test_wellFormed_desEnc_slot3 : (Instr.desEnc 3).wellFormed = false := by decide
theorem test_wellFormed_desDec_slot3 : (Instr.desDec 3).wellFormed = false := by decide
theorem test_wellFormed_desEnc_slot2 : (Instr.desEnc 2).wellFormed = true := by decide

/-! ## Decode: words written out from R52 and R53, bit by bit: RSV (26 bits), SLOT (2 bits), OP (4 bits) -/

theorem test_decode_keyload_bits : decode ((0b00000000000000000000000000 : BitVec 26) ++ (0b00 : BitVec 2) ++ (0b0001 : BitVec 4))
    = .ok .keyload := by decide
theorem test_decode_desEnc_bits : decode ((0b00000000000000000000000000 : BitVec 26) ++ (0b10 : BitVec 2) ++ (0b0010 : BitVec 4))
    = .ok (.desEnc 2) := by decide
theorem test_decode_desDec_bits : decode ((0b00000000000000000000000000 : BitVec 26) ++ (0b01 : BitVec 2) ++ (0b0011 : BitVec 4))
    = .ok (.desDec 1) := by decide
theorem test_decode_tdesEblk_bits : decode ((0b00000000000000000000000000 : BitVec 26) ++ (0b00 : BitVec 2) ++ (0b0100 : BitVec 4))
    = .ok .tdesEblk := by decide
theorem test_decode_tdesDblk_bits : decode ((0b00000000000000000000000000 : BitVec 26) ++ (0b00 : BitVec 2) ++ (0b0101 : BitVec 4))
    = .ok .tdesDblk := by decide
theorem test_decode_tdesEnc_bits : decode ((0b00000000000000000000000000 : BitVec 26) ++ (0b00 : BitVec 2) ++ (0b0110 : BitVec 4))
    = .ok .tdesEnc := by decide
theorem test_decode_tdesDec_bits : decode ((0b00000000000000000000000000 : BitVec 26) ++ (0b00 : BitVec 2) ++ (0b0111 : BitVec 4))
    = .ok .tdesDec := by decide

/-- Rows C1, C3, C5, C7, C9, C10 and C11. -/
theorem test_decode_illegal :
    decode 0x00000000 = .error .reservedOp ∧ decode 0x00000011 = .error .slotNotZero ∧
    decode 0x00000032 = .error .slotNamesNoSchedule ∧ decode 0x00000033 = .error .slotNamesNoSchedule ∧
    decode 0x00000014 = .error .slotNotZero ∧ decode 0x00000008 = .error .reservedOp ∧
    decode 0x0000000F = .error .reservedOp ∧ decode 0x00000040 = .error .reservedBits ∧
    decode 0x00000106 = .error .reservedBits ∧ decode 0x80000006 = .error .reservedBits ∧
    decode 0xFFFFFFFF = .error .reservedBits := by decide

/-! ## The datapath -/

/-- Rows B3, B4, B5. -/
theorem test_bits : getBit [0x00, 0x80] 9 = true ∧ putBit [0x00] 1 true = [0x80] ∧ putBit [0xFF] 8 false = [0xFE] := by
  decide

/-- Rows B7, B8, B9. -/
theorem test_initialPermutation : permute tableIP 64 (0x0123456789ABCDEF : Block) = 0xCC00CCFFF0AAF0AA ∧
    permute tableIP 64 (0x8000000000000000 : Block) = 0x0000000001000000 ∧
    permute tableIP 64 (0x0000000000000001 : Block) = 0x0000008000000000 := by decide +kernel

/-- Row B11. -/
theorem test_finalPermutation : permute tableIPInv 64 (0xCC00CCFFF0AAF0AA : Block) = 0x0123456789ABCDEF := by
  decide +kernel

/-- Row K1, as numbers and in the 4-byte storage of R72. -/
theorem test_keyHalves : keyHalfC 0x133457799BBCDFF1 = 0xF0CCAAF ∧ keyHalfD 0x133457799BBCDFF1 = 0x556678F ∧
    permuteBuffer (toBuffer (0x133457799BBCDFF1 : Block)) tablePC1C 28 = [0xF0, 0xCC, 0xAA, 0xF0] := by decide +kernel

/-- Rows K2, K3, K4. -/
theorem test_rotl28 : rotl28 0xF0CCAAF 1 = 0xE19955F ∧ rotl28 0x8000000 1 = 0x0000001 ∧ rotl28 0x0000001 1 = 0x0000002 ∧
    rotl28Buffer [0x80, 0x00, 0x00, 0x00] 1 = [0x00, 0x00, 0x00, 0x10] := by decide +kernel

/-- Row K6. -/
theorem test_subkeys : subkey (keySchedule 0x133457799BBCDFF1) 1 = 0x1B02EFFC7072 ∧
    subkey (keySchedule 0x133457799BBCDFF1) 2 = 0x79AED9DBC9E5 ∧
    subkey (keySchedule 0x133457799BBCDFF1) 16 = 0xCB3D8B0E17F5 := by decide +kernel

/-- The eight S-box outputs of rows X3 and X4: one group value in all eight groups. -/
theorem test_sBoxes : (List.range 8).map (sBox 0b100000100000100000100000100000100000100000100000) = [4, 0, 13, 10, 4, 9, 1, 7] ∧
    (List.range 8).map (sBox 0b000001000001000001000001000001000001000001000001) = [0, 3, 13, 13, 14, 10, 13, 1] := by
  decide +kernel

/-- Rows X6 and X7. -/
theorem test_sBoxes_columns : (List.range 8).map (sBox 0b101010101010101010101010101010101010101010101010) =
      [6, 4, 15, 11, 13, 8, 3, 12] ∧
    (List.range 8).map (sBox 0b011011011011011011011011011011011011011011011011) = [5, 9, 11, 10, 9, 11, 15, 14] := by
  decide +kernel

/-- Rows X8, X10, X11, X12. -/
theorem test_expand_and_P : permute tableE 48 (0x80000001 : Half) = 0xC00000000003 ∧
    permute tableE 48 (0xF0AAF0AA : Half) = 0x7A15557A1555 ∧ permute tableP 32 (0x80000000 : Half) = 0x00800000 ∧
    permute tableP 32 (0x00000001 : Half) = 0x00000800 := by decide +kernel

/-- Rows X13, X14, X17. -/
theorem test_roundF : roundF 0x00000000 0x000000000000 = 0xD8D8DBBC ∧ roundF 0xFFFFFFFF 0x000000000000 = 0x38DBF9CB ∧
    roundF 0xF0AAF0AA 0x1B02EFFC7072 = 0x234AA9BB := by decide +kernel

/-! ## Commands, one step each -/

/-- KEY_T: K1, K2, K3. -/
def keyT : List Byte :=
  [0x01, 0x23, 0x45, 0x67, 0x89, 0xAB, 0xCD, 0xEF] ++ [0x23, 0x45, 0x67, 0x89, 0xAB, 0xCD, 0xEF, 0x01] ++
  [0x45, 0x67, 0x89, 0xAB, 0xCD, 0xEF, 0x01, 0x23]

/-- The state after reset with KEY_T at `k` and `src` at 0x040, the registers naming them, and DST_ADDR = `d`. -/
def scene (k : Word) (src : List Byte) (d : Word) : State :=
  { State.reset with
    mem := (Memory.storeBytes [] 0x040 src).storeBytes k.toNat keyT
    keyAddr := k, keyLen := 24, srcAddr := 0x040, srcLen := BitVec.ofNat 32 src.length, dstAddr := d }

/-- "Hello". -/
def hello : List Byte := [0x48, 0x65, 0x6C, 0x6C, 0x6F]

/-- The ciphertexts of rows D6, D1, D4 and D5. -/
def cipherD6 : List Byte := [0x16, 0xEB, 0xDD, 0x9F, 0x28, 0xB5, 0x45, 0xCC]
def cipherD1 : List Byte := [0xC6, 0x75, 0x32, 0xB0, 0x6B, 0xF5, 0xCB, 0x8A]
def cipherD4 : List Byte := [0xC7, 0x17, 0x56, 0x4D, 0x4A, 0xA2, 0xE4, 0xFB]
def cipherD5 : List Byte := [0xF4, 0x0A, 0xAA, 0x2F, 0x20, 0x4B, 0x66, 0xEF]

/-- The state after reset with key schedules loaded and BLOCK = `x`. -/
def keyed (k1 k2 k3 x : Block) : State :=
  { State.reset with
    key1 := k1, key2 := k2, key3 := k3, ks1 := keySchedule k1, ks2 := keySchedule k2, ks3 := keySchedule k3
    ksv := true, block := x }

/-- The state after reset with `t` as the host's one transaction. -/
def host (t : HostTxn) (s : State) : State := { s with program := [t] }

/-- What `f` reads from the next state, where there is one. -/
def seen {α : Type} (f : State → α) : Host.Outcome State Fault Refusal → Option α
  | .next t => some (f t)
  | .fault _ => none
  | .refused _ => none

/-- Row E2: the last key range inside the memory; and R106's subkey KS1[1]. -/
theorem test_keyload_boundary : seen (fun t => (t.err, t.ksv, t.key1, t.key3, subkey t.ks1 1))
      (exec .keyload (scene 0xFE8 [] 0)) =
    some (0, true, 0x0123456789ABCDEF, 0x456789ABCDEF0123, 0x0B02679B49A5) := by decide +kernel

/-- Rows E3 and E4: the first key range outside it, and no wrap-around. -/
theorem test_keyload_addressFault : seen (fun t => (t.err, t.ksv)) (exec .keyload (scene 0xFE9 [] 0)) = some (6, false) ∧
    seen (fun t => t.err) (exec .keyload { scene 0 [] 0 with keyAddr := 0xFFFFFFFF }) = some 6 := by decide +kernel

/-- Rows V2 (slot 0) and V1 (slot 2): each slot has its own schedule. -/
theorem test_desEnc_slots :
    seen (fun t => (t.block, t.err)) (exec (.desEnc 0) (keyed 0x133457799BBCDFF1 0 0 0x0123456789ABCDEF)) =
      some (0x85E813540F0AB405, 0) ∧
    seen (fun t => (t.block, t.err)) (exec (.desEnc 2) (keyed 0 0 0x0123456789ABCDEF 0)) =
      some (0xD5D44FF720683D0D, 0) := by decide +kernel

/-- Row V12. -/
theorem test_desEnc_noKeySchedule : exec (.desEnc 1) State.reset = .next { State.reset with err := 5 } := by rfl

/-- Rows V1 (slot 1) and V2 (slot 0), column DEC. -/
theorem test_desDec_slots :
    seen (fun t => (t.block, t.err)) (exec (.desDec 1) (keyed 0 0x0123456789ABCDEF 0 0)) = some (0x14AAD7F4DBB4E094, 0) ∧
    seen (fun t => (t.block, t.err)) (exec (.desDec 0) (keyed 0x133457799BBCDFF1 0 0 0x0123456789ABCDEF)) =
      some (0xEE0F7C12E0B09338, 0) := by decide +kernel

/-- Row T2. -/
theorem test_tdesEblk : seen (fun t => (t.block, t.err))
      (exec .tdesEblk (keyed 0x0123456789ABCDEF 0x23456789ABCDEF01 0x456789ABCDEF0123 0x5468652071756663)) =
    some (0xA826FD8CE53B855F, 0) := by decide +kernel

/-- Row T8: K1 = K2. -/
theorem test_tdesEblk_degenerate : seen (fun t => t.block)
      (exec .tdesEblk (keyed 0x0123456789ABCDEF 0x0123456789ABCDEF 0x456789ABCDEF0123 0)) =
    some 0x349C1224256DA1D1 := by decide +kernel

/-- Row T2, last column. -/
theorem test_tdesDblk : seen (fun t => (t.block, t.err))
      (exec .tdesDblk (keyed 0x0123456789ABCDEF 0x23456789ABCDEF01 0x456789ABCDEF0123 0x5468652071756663)) =
    some (0x6725870A7B3A3BAE, 0) := by decide +kernel

/-- Rows Y3 and E25: the output ends at the last byte of the memory. -/
theorem test_tdesEnc_hello : seen (fun t => (readBytes t 0xFF8 8, t.dstLen, t.err, t.ksv)) (exec .tdesEnc (scene 0 hello 0xFF8)) =
    some (cipherD6, 8, 0, true) := by decide +kernel

/-- Rows Y1 and E26: an empty source anywhere. -/
theorem test_tdesEnc_empty : seen (fun t => (readBytes t 0x100 8, t.dstLen, t.err))
      (exec .tdesEnc { scene 0 [] 0x100 with srcAddr := 0xFFFFFFFF }) =
    some ([0x83, 0x28, 0x46, 0xB5, 0x2F, 0x9E, 0x21, 0x3D], 8, 0) := by decide +kernel

/-- Row D6, and of R110 that the three pad bytes are not written. -/
theorem test_tdesDec_hello : seen (fun t => (readBytes t 0x080 5, t.mem.lookup 0x085, t.dstLen, t.err))
      (exec .tdesDec (scene 0 cipherD6 0x080)) =
    some (hello, none, 5, 0) := by decide +kernel

/-- Row D1: the last byte is 09. -/
theorem test_tdesDec_invalidPadding : seen (fun t => (t.err, t.dstLen, t.ksv, t.mem.lookup 0x080))
      (exec .tdesDec (scene 0 cipherD1 0x080)) =
    some (3, 0, false, none) := by decide +kernel

/-! ## Witnesses: command words and the step -/

theorem witness_ElevenWordsAreCommands : decode 0x00000007 = .ok .tdesDec ∧ decode 0x00000022 = .ok (.desEnc 2) := by decide

theorem witness_DecodeEncodeAgree : (Instr.desEnc 2).wellFormed = true ∧ (Instr.desDec 0).wellFormed = true ∧
    Instr.tdesDec.wellFormed = true ∧ decode 0x00000022 = .ok (.desEnc 2) ∧ decode 0x00000007 = .ok .tdesDec := by decide

/-- One word per clause of R55, at the ends of each clause's range. -/
theorem witness_IllegalWordsOnlySetErr_words :
    ((0x00000041 : Word).extractLsb' 6 26 ≠ 0 ∧ (0x80000001 : Word).extractLsb' 6 26 ≠ 0) ∧
    ((0x00000000 : Word).extractLsb' 0 4).toNat = 0 ∧
    (8 ≤ ((0x00000008 : Word).extractLsb' 0 4).toNat ∧ 8 ≤ ((0x0000000F : Word).extractLsb' 0 4).toNat) ∧
    (((0x00000032 : Word).extractLsb' 0 4).toNat = 2 ∧ ((0x00000032 : Word).extractLsb' 4 2).toNat = 3) ∧
    (((0x00000033 : Word).extractLsb' 0 4).toNat = 3 ∧ ((0x00000033 : Word).extractLsb' 4 2).toNat = 3) ∧
    (((0x00000011 : Word).extractLsb' 0 4).toNat ≠ 2 ∧ ((0x00000011 : Word).extractLsb' 0 4).toNat ≠ 3 ∧
      ((0x00000011 : Word).extractLsb' 4 2).toNat ≠ 0) ∧
    ((0x00000014 : Word).extractLsb' 4 2).toNat ≠ 0 := by decide

theorem witness_IllegalWordsOnlySetErr : decode 0x00000032 = .error .slotNamesNoSchedule ∧
    decode 0x00000014 = .error .slotNotZero ∧ decode 0x00000000 = .error .reservedOp ∧
    decode 0xFFFFFFFF = .error .reservedBits := by decide

theorem witness_StepRunsTheCommandWord :
    (host (.regWrite 0x00 0x00000022) State.reset).program = .regWrite 0x00 0x00000022 :: [] ∧
    decode 0x00000022 = .ok (.desEnc 2) ∧ decode 0x00000032 = .error .slotNamesNoSchedule := by decide

theorem witness_StepAnswersExactlyOnTheInterface :
    (∀ x ∈ (host (.memRead 0xFFF) State.reset).program.head?, x.legal State.reset.cfg.memSize = true) ∧
    ¬ (∀ x ∈ (host (.memRead 0x1000) State.reset).program.head?, x.legal State.reset.cfg.memSize = true) := by decide

/-- A program at the ends of the interface's ranges. -/
theorem witness_LegalProgramsNeverStop : ∀ x ∈ ([.regWrite 0x000 0x00000001, .regWrite 0xFFC 0, .regRead 0x000, .regRead 0xFFC,
      .memWrite 0x000 0xFF, .memWrite 0xFFF 0, .memRead 0x000, .memRead 0xFFF, .reset] : List HostTxn),
    x.legal State.reset.cfg.memSize = true := by decide

theorem witness_StepTakesOneTransaction : (∃ t, step (host .reset State.reset) = .next t) ∧ State.reset.program = [] :=
  ⟨⟨_, rfl⟩, rfl⟩

theorem witness_ResetTransaction : (host .reset (scene 0 hello 0x80)).program = .reset :: [] := rfl

theorem witness_StepKeepsInvariant : (host (.regWrite 0x00 0x00000006) (scene 0 hello 0xFF8)).Inv ∧
    ∃ t, step (host (.regWrite 0x00 0x00000006) (scene 0 hello 0xFF8)) = .next t :=
  ⟨⟨by decide, by decide, by decide, by decide, by decide, by decide⟩, ⟨_, rfl⟩⟩

/-! ## Witnesses: the commands -/

/-- For each OP, a word of that OP that is no command: the lowest bad SLOT, or the highest RSV bit. -/
theorem witness_other_words_of_each_op :
    ((0x00000011 : Word).extractLsb' 0 4 = 1 ∧ (0x00000011 : Word) ≠ 0x00000001) ∧
    ((0x00000032 : Word).extractLsb' 0 4 = 2 ∧ (0x00000032 : Word) ≠ 0x00000002 ∧ (0x00000032 : Word) ≠ 0x00000012 ∧
      (0x00000032 : Word) ≠ 0x00000022) ∧
    ((0x80000003 : Word).extractLsb' 0 4 = 3 ∧ (0x80000003 : Word) ≠ 0x00000003 ∧ (0x80000003 : Word) ≠ 0x00000013 ∧
      (0x80000003 : Word) ≠ 0x00000023) ∧
    ((0x00000014 : Word).extractLsb' 0 4 = 4 ∧ (0x00000014 : Word) ≠ 0x00000004) ∧
    ((0x80000005 : Word).extractLsb' 0 4 = 5 ∧ (0x80000005 : Word) ≠ 0x00000005) ∧
    ((0x00000106 : Word).extractLsb' 0 4 = 6 ∧ (0x00000106 : Word) ≠ 0x00000006) ∧
    ((0x00000047 : Word).extractLsb' 0 4 = 7 ∧ (0x00000047 : Word) ≠ 0x00000007) := by decide

theorem witness_KeyloadFollowsItsRule_length :
    (scene 0 [] 0).keyLen = 24 ∧ ({ scene 0 [] 0 with keyLen := 23 } : State).keyLen ≠ 24 ∧
    ({ scene 0 [] 0 with keyLen := 25 } : State).keyLen ≠ 24 := by decide

theorem witness_KeyloadFollowsItsRule_range :
    ((scene 0xFE8 [] 0).keyLen = 24 ∧ (scene 0xFE8 [] 0).keyAddr.toNat + 24 ≤ (scene 0xFE8 [] 0).cfg.memSize) ∧
    ((scene 0xFE9 [] 0).keyLen = 24 ∧ (scene 0xFE9 [] 0).cfg.memSize < (scene 0xFE9 [] 0).keyAddr.toNat + 24) := by decide

theorem witness_DesEncFollowsItsRule : (State.reset.ksv = false ∧ (2 : BitVec 2) ≠ 3) ∧ (keyed 0 0 0 0).ksv = true := by decide

theorem witness_DesDecFollowsItsRule : (State.reset.ksv = false ∧ (0 : BitVec 2) ≠ 3) ∧ (keyed 0 0 0 0).ksv = true := by decide

theorem witness_TdesEblkFollowsItsRule : State.reset.ksv = false ∧ (keyed 0 0 0 0).ksv = true := by decide

theorem witness_TdesDblkFollowsItsRule : State.reset.ksv = false ∧ (keyed 0 0 0 0).ksv = true := by decide

/-- The key, source and destination checks of R109 at their boundaries, and the ranges that pass. -/
theorem witness_TdesEncFollowsItsRule :
    ({ scene 0 hello 0 with keyLen := 16 } : State).keyLen ≠ 24 ∧
    ((scene 0xFE9 hello 0).keyLen = 24 ∧ (scene 0xFE9 hello 0).cfg.memSize < (scene 0xFE9 hello 0).keyAddr.toNat + 24) ∧
    ((scene 0 hello 0).srcLen.toNat ≠ 0 ∧ ({ scene 0 hello 0 with srcAddr := 0xFFC } : State).cfg.memSize <
      ({ scene 0 hello 0 with srcAddr := 0xFFC } : State).srcAddr.toNat + 5) ∧
    ((scene 0 hello 0xFF9).srcLen.toNat = 5 ∧
      (scene 0 hello 0xFF9).cfg.memSize < (scene 0 hello 0xFF9).dstAddr.toNat + (5 + (8 - 5 % 8))) ∧
    ((scene 0xFE8 hello 0xFF8).keyLen = 24 ∧ (scene 0xFE8 hello 0xFF8).keyAddr.toNat + 24 ≤ (scene 0xFE8 hello 0xFF8).cfg.memSize ∧
      (scene 0xFE8 hello 0xFF8).srcAddr.toNat + 5 ≤ (scene 0xFE8 hello 0xFF8).cfg.memSize ∧
      (scene 0xFE8 hello 0xFF8).dstAddr.toNat + (5 + (8 - 5 % 8)) ≤ (scene 0xFE8 hello 0xFF8).cfg.memSize) ∧
    ((scene 0 [] 0).srcLen.toNat = 0 ∧ 0 < (0 + (8 - 0 % 8)) / 8) := by decide +kernel

/-- The length and range checks of R110 at their boundaries. -/
theorem witness_TdesDecFollowsItsRule_checks :
    ({ scene 0 cipherD6 0 with keyLen := 25 } : State).keyLen ≠ 24 ∧
    ((scene 0 [] 0).keyLen = 24 ∧ (scene 0 [] 0).srcLen.toNat = 0) ∧
    ((scene 0 hello 0).keyLen = 24 ∧ (scene 0 hello 0).srcLen.toNat % 8 ≠ 0) ∧
    ((scene 0 cipherD6 0).srcLen.toNat ≠ 0 ∧ (scene 0 cipherD6 0).srcLen.toNat % 8 = 0) ∧
    (scene 0xFE9 cipherD6 0).cfg.memSize < (scene 0xFE9 cipherD6 0).keyAddr.toNat + 24 ∧
    ({ scene 0 cipherD6 0 with srcAddr := 0xFFC } : State).cfg.memSize <
      ({ scene 0 cipherD6 0 with srcAddr := 0xFFC } : State).srcAddr.toNat + 8 ∧
    (scene 0 cipherD6 0xFF9).cfg.memSize < (scene 0 cipherD6 0xFF9).dstAddr.toNat + 8 ∧
    ((scene 0xFE8 cipherD6 0xFF8).keyAddr.toNat + 24 ≤ (scene 0xFE8 cipherD6 0xFF8).cfg.memSize ∧
      (scene 0xFE8 cipherD6 0xFF8).srcAddr.toNat + 8 ≤ (scene 0xFE8 cipherD6 0xFF8).cfg.memSize ∧
      (scene 0xFE8 cipherD6 0xFF8).dstAddr.toNat + 8 ≤ (scene 0xFE8 cipherD6 0xFF8).cfg.memSize) := by decide +kernel

/-- Last bytes at the ends of the pad range: 9 (row D1), 8 (row D4) and 1 (row D5). -/
theorem witness_TdesDecFollowsItsRule_pads :
    ((decryptedBuffer (scene 0 cipherD1 0x80)).getD (8 - 1) 0).toNat = 9 ∧
    ((decryptedBuffer (scene 0 cipherD4 0x80)).getD (8 - 1) 0).toNat = 8 ∧
    ((decryptedBuffer (scene 0 cipherD5 0x80)).getD (8 - 1) 0).toNat = 1 := by decide +kernel

/-- Row D2: the last byte is 0. -/
theorem witness_TdesDecFollowsItsRule_padZero :
    ((decryptedBuffer (scene 0 [0x4E, 0xBA, 0x73, 0x9C, 0x99, 0x8B, 0xCB, 0x60] 0x80)).getD (8 - 1) 0).toNat = 0 := by
  decide +kernel

/-! ## Witnesses: errors and flags -/

theorem witness_FirstApplicableErrorIsReported : decode 0x00000041 = .error .reservedBits ∧
    Instr.desDec 2 ∈ [Instr.desEnc 0, .desEnc 1, .desEnc 2, .desDec 0, .desDec 1, .desDec 2, .tdesEblk, .tdesDblk] := by decide

theorem witness_FailedCommandsOnlySetErr : (∃ t, exec .keyload State.reset = .next t ∧ t.err ≠ 0) ∧
    (∃ t, execute 0x00000008 State.reset = .next t ∧ t.err ≠ 0) := ⟨⟨_, rfl, by decide⟩, ⟨_, rfl, by decide⟩⟩

theorem witness_CommandsWriteOnlyTheirOwnState_blocks :
    (∃ t, exec .keyload State.reset = .next t ∧ t.err ≠ 0) ∧
    (∃ t, exec .keyload (scene 0 [] 0) = .next t) ∧ (∃ t, exec (.desEnc 0) (keyed 0 0 0 0) = .next t) ∧
    (∃ t, exec (.desDec 2) (keyed 0 0 0 0) = .next t) ∧ (∃ t, exec .tdesEblk (keyed 0 0 0 0) = .next t) ∧
    (∃ t, exec .tdesDblk (keyed 0 0 0 0) = .next t) :=
  ⟨⟨_, rfl, by decide⟩, ⟨_, execKeyload_eq (by decide) (by decide)⟩, ⟨_, rfl⟩, ⟨_, rfl⟩, ⟨_, rfl⟩, ⟨_, rfl⟩⟩

/-- A TDES.ENC that succeeds. -/
theorem hello_encrypts (d : Word) (h : d.toNat + 8 ≤ 0x1000) :
    exec .tdesEnc (scene 0 hello d) = .next (bufferResult (encryptedOutput (scene 0 hello d)) (scene 0 hello d)) := by
  refine execTdesEnc_eq (by simp [scene]) ?_
  have hd : destinationInRange (scene 0 hello d) (paddedLength (scene 0 hello d).srcLen.toNat) = true := by
    simp only [destinationInRange, inRange_iff]
    exact .inr h
  simp only [encRangesOk, hd, Bool.and_true]
  rfl

/-- A TDES.DEC that succeeds: row D6. -/
theorem cipher_decrypts : ∃ t, exec .tdesDec (scene 0 cipherD6 0x80) = .next t ∧ t.err = 0 := by
  have h : seen (fun t => t.err) (exec .tdesDec (scene 0 cipherD6 0x80)) = some 0 := by decide +kernel
  cases hx : exec .tdesDec (scene 0 cipherD6 0x80) with
  | next t => rw [hx] at h; exact ⟨t, rfl, by simpa [seen] using h⟩
  | fault r => rw [hx] at h; simp [seen] at h
  | refused r => rw [hx] at h; simp [seen] at h

theorem witness_CommandsWriteOnlyTheirOwnState_buffers :
    (scene 0 hello 0x80).cfg.legal = true ∧ (∃ t, exec .tdesEnc (scene 0 hello 0x80) = .next t ∧ t.err = 0) ∧
    (scene 0 cipherD6 0x80).cfg.legal = true ∧ (∃ t, exec .tdesDec (scene 0 cipherD6 0x80) = .next t ∧ t.err = 0) :=
  ⟨by decide, ⟨_, hello_encrypts 0x80 (by decide), rfl⟩, by decide, cipher_decrypts⟩

theorem witness_KsvIsSetByKeyLoadsAndClearedByReset :
    (∃ t, exec .keyload (scene 0 [] 0) = .next t ∧ t.err = 0) ∧
    (∃ t, exec .tdesEnc (scene 0 hello 0x80) = .next t ∧ t.err = 0) ∧
    (∃ t, step (host .reset (keyed 0 0 0 0)) = .next t ∧ (host .reset (keyed 0 0 0 0)).ksv = true ∧ t.ksv = false) ∧
    (host .reset (keyed 0 0 0 0)).program = .reset :: [] ∧
    State.reset.ksv = false :=
  ⟨⟨_, execKeyload_eq (by decide) (by decide), rfl⟩, ⟨_, hello_encrypts 0x80 (by decide), rfl⟩, ⟨_, rfl, rfl, rfl⟩, rfl, rfl⟩

theorem witness_ErrIsNotSticky : HostTxn.isCommand (.regWrite 0x04 1) = false ∧ HostTxn.regWrite 0x04 1 ≠ .reset ∧
    ∃ t, step (host (.regWrite 0x04 1) State.reset) = .next t := ⟨rfl, by decide, ⟨_, rfl⟩⟩

/-! ## Witnesses: host transactions -/

theorem witness_RegWriteFollowsItsRule :
    (host (.regWrite 0x24 1) State.reset).program = .regWrite 0x24 1 :: [] ∧
    (0x28 ≤ 0x28 ∧ 0x28 % 4 = 0 ∧ 0x28 ≤ 0xFFC) ∧ (0x28 ≤ 0xFFC ∧ 0xFFC % 4 = 0 ∧ 0xFFC ≤ 0xFFC) := by decide

theorem witness_RegReadFollowsItsRule :
    ((host (.regRead 0x00) State.reset).program = .regRead 0x00 :: [] ∧ 0x00 % 4 = 0 ∧ 0x00 ≤ 0xFFC) ∧
    ((host (.regRead 0x24) State.reset).program = .regRead 0x24 :: [] ∧ 0x24 % 4 = 0 ∧ 0x24 ≤ 0xFFC) ∧
    ((host (.regRead 0xFFC) State.reset).program = .regRead 0xFFC :: [] ∧ 0xFFC % 4 = 0 ∧ 0xFFC ≤ 0xFFC) := by decide

theorem witness_OtherRegisterAccessesAreRefused :
    (host (.regOtherWidth 0x08) State.reset).program = .regOtherWidth 0x08 :: [] ∧
    (0x05 % 4 ≠ 0 ∧ (host (.regWrite 0x05 1) State.reset).program = .regWrite 0x05 1 :: []) ∧
    (0xFFC < 0x1000 ∧ (host (.regRead 0x1000) State.reset).program = .regRead 0x1000 :: []) ∧
    (0x28 ≤ 0x28 ∧ 0x28 % 4 = 0 ∧ (host (.regWrite 0x28 1) State.reset).program = .regWrite 0x28 1 :: []) ∧
    (0xFFC ≤ 0xFFC ∧ 0xFFC % 4 = 0 ∧ (host (.regRead 0xFFC) State.reset).program = .regRead 0xFFC :: []) := by decide

theorem witness_HostMemoryTransactions :
    ((host (.memWrite 0xFFF 7) State.reset).program = .memWrite 0xFFF 7 :: [] ∧ 0xFFF < State.reset.cfg.memSize) ∧
    ((host (.memRead 0xFFF) State.reset).program = .memRead 0xFFF :: [] ∧ 0xFFF < State.reset.cfg.memSize) ∧
    ((host (.memRead 0x1000) State.reset).program = .memRead 0x1000 :: [] ∧ State.reset.cfg.memSize ≤ 0x1000) := by decide

/-- A memory write onto the key bytes, and a block command. -/
theorem witness_OnlyKeyLoadsChangeTheKeys :
    (HostTxn.loadsKeys (.memWrite 0 7) = false ∧ HostTxn.memWrite 0 7 ≠ .reset ∧
      ∃ t, step (host (.memWrite 0 7) (scene 0 [] 0)) = .next t) ∧
    (HostTxn.loadsKeys (.regWrite 0 0x00000002) = false ∧ HostTxn.regWrite 0 0x00000002 ≠ .reset ∧
      ∃ t, step (host (.regWrite 0 0x00000002) State.reset) = .next t) :=
  ⟨⟨rfl, by decide, ⟨_, rfl⟩⟩, ⟨by decide, by decide, ⟨_, rfl⟩⟩⟩

theorem witness_OnlyWritesChangeMemory : HostTxn.writesMemory (.regWrite 0 0x00000001) = false ∧
    HostTxn.writesMemory .reset = false ∧ ∃ t, step (host .reset (scene 0 hello 0)) = .next t :=
  ⟨by decide, rfl, ⟨_, rfl⟩⟩

/-- Each of the three outcomes of a step with KSV = 0. -/
theorem witness_KeyStateIsUnobservableWhileInvalid : State.reset.ksv = false ∧
    step (host (.memRead 0x1000) State.reset) = .fault .hostAddressOutsideMemory ∧
    step (host (.regOtherWidth 0) State.reset) = .refused .registerAccessOutsideInterface ∧
    (∃ t, step (host (.regWrite 0 0x00000004) State.reset) = .next t) := ⟨rfl, rfl, rfl, ⟨_, rfl⟩⟩

theorem witness_PseudoInstructionExpansions : (1 ≤ 1 ∧ 1 ≤ 3) ∧ (1 ≤ 3 ∧ 3 ≤ 3) := by decide

/-! ## Witnesses: the datapath -/

theorem witness_BlockBytesAndBits : cipherD6.length = 8 ∧ (1 ≤ 1 ∧ 1 ≤ 64) ∧ (1 ≤ 64 ∧ 64 ≤ 64) := by decide

/-- Positions 28 and 29 of a 28-bit value in its 4 bytes. -/
theorem witness_BufferBitsAndZeroTail : (1 ≤ 28 ∧ 28 ≤ 28) ∧ (28 < 29 ∧ 29 ≤ 8 * ((28 + 7) / 8)) ∧
    (28 < 32 ∧ 32 ≤ 8 * ((28 + 7) / 8)) := by decide

theorem witness_PutBitChangesOneBit : (1 ≤ 1 ∧ 1 ≤ 8 * hello.length) ∧
    (1 ≤ 40 ∧ 40 ≤ 8 * hello.length ∧ 40 ≠ 1) := by decide

theorem witness_PermuteBufferRefinesPermute : tablePC1C.length = 28 ∧ ∀ p ∈ tablePC1C, 1 ≤ p ∧ p ≤ 64 := by decide

theorem witness_PermutationTablesAreInRange : (tableE, 32, 48) ∈ ([(tableIP, 64, 64), (tableIPInv, 64, 64), (tablePC1C, 64, 28),
      (tablePC1D, 64, 28), (tablePC2, 56, 48), (tableE, 32, 48), (tableP, 32, 32)] : List (List Nat × Nat × Nat)) ∧
    32 ∈ tableE ∧ 1 ∈ tableE := by decide

theorem witness_InitialAndFinalPermutationsAreInverse : (1 ≤ 1 ∧ 1 ≤ 64) ∧ (1 ≤ 64 ∧ 64 ≤ 64) := by decide

theorem witness_RotationClosedForm : (0 ≤ 28) ∧ (28 ≤ 28) := by decide

theorem witness_RoundNumbers : (1 ≤ 1 ∧ 1 ≤ 16) ∧ (1 ≤ 16 ∧ 16 ≤ 16) := by decide

/-- Row K9: two keys that differ in the parity bits. -/
theorem witness_ParityBitsDoNotMatter : (0x0123456789ABCDEF : Block) ≠ 0x0022446688AACCEE ∧
    (0x0123456789ABCDEF : Block) &&& 0xFEFEFEFEFEFEFEFE = (0x0022446688AACCEE : Block) &&& 0xFEFEFEFEFEFEFEFE := by decide

theorem witness_SBoxRowsArePermutations : tableS8 ∈ tableS ∧ tableS1 ∈ tableS := by decide

/-- The first and the last of the eight groups. -/
theorem witness_SBoxReadsItsGroup : (0 < 8 ∧ (32 : Nat) = ((0x820820820820 : BitVec 48).toNat >>> (42 - 6 * 0)) % 64) ∧
    (7 < 8 ∧ (32 : Nat) = ((0x820820820820 : BitVec 48).toNat >>> (42 - 6 * 7)) % 64) := by decide

/-- The first and the last position of R85's bit-level form: P[1] = 16 and P[32] = 25. -/
theorem witness_RoundFunctionDependsOnTheMix_bits :
    (1 ≤ 1 ∧ 1 ≤ 32 ∧ 16 = tableP.getD (1 - 1) 0) ∧ (1 ≤ 32 ∧ 32 ≤ 32 ∧ 25 = tableP.getD (32 - 1) 0) ∧
    (0x7A15557A1555 : Subkey) = permute tableE 48 (0xF0AAF0AA : Half) ^^^ 0 := by decide +kernel

/-- Rows X14 and X15: E(R) xor K is all ones in both. -/
theorem witness_RoundFunctionDependsOnTheMix :
    permute tableE 48 (0xFFFFFFFF : Half) ^^^ (0 : Subkey) = permute tableE 48 (0 : Half) ^^^ 0xFFFFFFFFFFFF := by
  decide +kernel

/-! ## Witnesses: buffers -/

theorem witness_PaddingFollowsItsRules : padLength 16 = 8 ∧ 16 % 8 = 0 ∧
    (0x03 : Byte) ∈ (padded hello).drop hello.length := by decide

theorem witness_DepaddingFollowsItsRule : ((0x00 : Byte).toNat < 1 ∧ 8 < (0x09 : Byte).toNat) ∧
    (1 ≤ (0x01 : Byte).toNat ∧ (0x01 : Byte).toNat ≤ 8) ∧ (1 ≤ (0x08 : Byte).toNat ∧ (0x08 : Byte).toNat ≤ 8) := by decide

/-- The same operands in place and apart (R37). -/
theorem witness_BufferResultsIgnorePlacement :
    (scene 0 hello 0x40).keyLen = (scene 0 hello 0x80).keyLen ∧
    readBytes (scene 0 hello 0x40) (scene 0 hello 0x40).keyAddr.toNat 24 =
      readBytes (scene 0 hello 0x80) (scene 0 hello 0x80).keyAddr.toNat 24 ∧
    (scene 0 hello 0x40).srcLen = (scene 0 hello 0x80).srcLen ∧
    readBytes (scene 0 hello 0x40) (scene 0 hello 0x40).srcAddr.toNat (scene 0 hello 0x40).srcLen.toNat =
      readBytes (scene 0 hello 0x80) (scene 0 hello 0x80).srcAddr.toNat (scene 0 hello 0x80).srcLen.toNat ∧
    (scene 0 hello 0x40).cfg.legal = true ∧
    (∃ t, exec .tdesEnc (scene 0 hello 0x40) = .next t ∧ t.err ≠ 6 ∧ t.err = 0) ∧
    (∃ t, exec .tdesEnc (scene 0 hello 0x80) = .next t ∧ t.err ≠ 6) :=
  ⟨rfl, rfl, rfl, rfl, by decide, ⟨_, hello_encrypts 0x40 (by decide), by decide, rfl⟩,
    ⟨_, hello_encrypts 0x80 (by decide), by decide⟩⟩

theorem witness_EncryptedLengthIsPadded : (scene 0 hello 0xFF8).cfg.legal = true ∧
    ∃ t, exec .tdesEnc (scene 0 hello 0xFF8) = .next t ∧ t.err = 0 :=
  ⟨by decide, ⟨_, hello_encrypts 0xFF8 (by decide), rfl⟩⟩

/-- The source of 16 zero bytes: its first two padded blocks are equal, of three. -/
abbrev zeros : State := scene 0 (List.replicate 16 0) 0x80

theorem witness_BlocksAreIndependent_encrypt :
    (∃ t, exec .tdesEnc zeros = .next t ∧ t.err = 0) ∧
    0 < (padded (sourceOperand zeros)).length / 8 ∧ 1 < (padded (sourceOperand zeros)).length / 8 ∧
    ((padded (sourceOperand zeros)).drop (8 * 0)).take 8 = ((padded (sourceOperand zeros)).drop (8 * 1)).take 8 :=
  ⟨⟨_, execTdesEnc_eq (by decide) (by decide), rfl⟩, by decide, by decide, by decide +kernel⟩

theorem witness_BlocksAreIndependent_decrypt : 0 < zeros.srcLen.toNat / 8 ∧ 1 < zeros.srcLen.toNat / 8 ∧
    ((sourceOperand zeros).drop (8 * 0)).take 8 = ((sourceOperand zeros).drop (8 * 1)).take 8 := by decide +kernel

/-- TDES.ENC of "Hello", and the state with its output at 0x040 as the source (rows Y3 and D6). -/
theorem witness_DecryptionReturnsThePlaintext :
    (scene 0 hello 0x80).cfg.legal = true ∧
    (∃ t, exec .tdesEnc (scene 0 hello 0x80) = .next t ∧ t.err = 0 ∧ (scene 0 cipherD6 0x80).srcLen = t.dstLen ∧
      readBytes (scene 0 cipherD6 0x80) (scene 0 cipherD6 0x80).srcAddr.toNat (scene 0 cipherD6 0x80).srcLen.toNat =
        readBytes t (scene 0 hello 0x80).dstAddr.toNat t.dstLen.toNat) ∧
    (scene 0 cipherD6 0x80).keyLen = 24 ∧
    readBytes (scene 0 cipherD6 0x80) (scene 0 cipherD6 0x80).keyAddr.toNat 24 =
      readBytes (scene 0 hello 0x80) (scene 0 hello 0x80).keyAddr.toNat 24 ∧
    inRange (scene 0 cipherD6 0x80) (scene 0 cipherD6 0x80).keyAddr.toNat 24 = true ∧
    inRange (scene 0 cipherD6 0x80) (scene 0 cipherD6 0x80).srcAddr.toNat (scene 0 cipherD6 0x80).srcLen.toNat = true ∧
    inRange (scene 0 cipherD6 0x80) (scene 0 cipherD6 0x80).dstAddr.toNat (scene 0 cipherD6 0x80).srcLen.toNat = true :=
  ⟨by decide, ⟨_, hello_encrypts 0x80 (by decide), rfl, by decide +kernel, by decide +kernel⟩, by decide, by decide +kernel,
    by decide, by decide, by decide⟩

end Sys2Proof.Tests
end

section
/-!
SUPPORT. The invariant of every state: each update and each command keeps it, and so does every step. That a step takes
one transaction and leaves the parameters follows from the same case lemmas.
-/

namespace Sys2Proof.Machine

/-! ## The updates keep the invariant -/

/-- R123: the codes a command reports. -/
theorem errNumber_le_six (c : ErrCode) : (errNumber c).toNat ≤ 6 := by cases c <;> decide

theorem setErr_inv {s : State} (c : ErrCode) (h : s.Inv) : (setErr c s).Inv := by
  obtain ⟨hcfg, hwf, hbelow, -, hks, hdst⟩ := h
  exact ⟨hcfg, hwf, hbelow, errNumber_le_six c, hks, hdst⟩

/-- The invariant does not speak of BLOCK. -/
theorem setBlock_inv {s : State} (x : Block) (h : s.Inv) : (setBlock x s).Inv := h

/-- The keys and their schedules are loaded together (R26). -/
theorem loadKeys_inv {s : State} (k : TripleKey) (h : s.Inv) : (loadKeys k s).Inv := by
  obtain ⟨hcfg, hwf, hbelow, herr, -, hdst⟩ := h
  exact ⟨hcfg, hwf, hbelow, herr, fun _ => ⟨rfl, rfl, rfl⟩, hdst⟩

theorem setByte_inv {s : State} {a : Nat} (b : Byte) (h : s.Inv) (ha : a < s.cfg.memSize) : (setByte a b s).Inv := by
  obtain ⟨hcfg, hwf, hbelow, herr, hks, hdst⟩ := h
  exact ⟨hcfg, Memory.store_wf _ _ _ hwf, Memory.store_below _ _ hbelow ha, herr, hks, hdst⟩

theorem storeOutput_inv {s : State} {out : List Byte} (h : s.Inv) (hout : s.dstAddr.toNat + out.length ≤ s.cfg.memSize) :
    (storeOutput out s).Inv := by
  obtain ⟨hcfg, hwf, hbelow, herr, hks, -⟩ := h
  have hlen : (storeOutput out s).dstLen.toNat ≤ out.length := by
    rw [storeOutput_dstLen, BitVec.toNat_ofNat]
    exact Nat.mod_le _ _
  exact ⟨hcfg, Memory.storeBytes_wf _ _ _ hwf, Memory.storeBytes_below _ _ _ hbelow hout, herr, hks,
    hlen.trans ((Nat.le_add_left _ _).trans hout)⟩

theorem bufferResult_inv {s : State} {out : List Byte} (h : s.Inv) (hout : s.dstAddr.toNat + out.length ≤ s.cfg.memSize) :
    (bufferResult out s).Inv :=
  setErr_inv _ (loadKeys_inv _ (storeOutput_inv h hout))

/-- The invariant does not speak of what the host has read. -/
theorem respond_inv {s : State} (r : Response) (h : s.Inv) : (respond r s).Inv := h

/-- The invariant does not speak of the index of the free values. -/
theorem nextEpoch_inv {s : State} (h : s.Inv) : (nextEpoch s).Inv := h

/-- The invariant does not speak of what the host has still to issue. -/
theorem setProgram_inv {s : State} (p : List HostTxn) (h : s.Inv) : ({ s with program := p } : State).Inv := h

/-- A Reset transaction clears KSV, ERR and DST_LEN and leaves memory and parameters (R140, R141). -/
theorem resetEngine_inv {s : State} (h : s.Inv) : (resetEngine s).Inv := by
  obtain ⟨hcfg, hwf, hbelow, -, -, -⟩ := h
  exact ⟨hcfg, hwf, hbelow, Nat.zero_le _, nofun, Nat.zero_le _⟩

/-- A register write reaches no register that the invariant speaks of: STATUS and DST_LEN are read-only (R115). -/
theorem writeReg_inv {s : State} (r : Reg) (w : Word) (h : s.Inv) : (writeReg r w s).Inv := by
  simpa [State.Inv, SchedulesMatch] using h

/-! ## The commands keep the invariant -/

/-- The range TDES.ENC checks is the range it writes: the padded length is never 0, so the check is not the empty
range's. -/
theorem encryptedOutput_fits {s : State} (h : encRangesOk s = true) :
    s.dstAddr.toNat + (encryptedOutput s).length ≤ s.cfg.memSize := by
  have hpad := padLength_bounds s.srcLen.toNat
  simp only [encRangesOk, destinationInRange, Bool.and_eq_true, inRange_iff] at h
  obtain ⟨-, hdst⟩ := h
  simp only [encryptedOutput_length, paddedLength] at hdst ⊢
  omega

/-- TDES.DEC writes less than the range it checks, which a good ciphertext length keeps from being empty. -/
theorem depadded_fits {s : State} {out : List Byte} (hb : ¬ badCiphertextLength s) (h : decRangesOk s = true)
    (hd : depadded (decryptedBuffer s) = some out) : s.dstAddr.toNat + out.length ≤ s.cfg.memSize := by
  obtain ⟨-, rfl⟩ := depadded_some.mp hd
  simp only [decRangesOk, destinationInRange, Bool.and_eq_true, inRange_iff] at h
  obtain ⟨-, hdst⟩ := h
  simp only [badCiphertextLength, not_or] at hb
  simp only [List.length_take, decryptedBuffer_length]
  omega

theorem desCommand_inv {dir : Direction} {slot : BitVec 2} {s t : State} (hs : s.Inv)
    (h : desCommand dir slot s = .next t) : t.Inv := by
  rcases desCommand_cases h with ⟨_, rfl⟩ | ⟨_, _, rfl⟩ | ⟨_, _, _, rfl⟩
  · exact setErr_inv _ hs
  · exact setErr_inv _ hs
  · exact setErr_inv _ (setBlock_inv _ hs)

theorem exec_inv {i : Instr} {s t : State} (hs : s.Inv) (h : exec i s = .next t) : t.Inv := by
  cases i with
  | keyload =>
    rcases execKeyload_cases h with ⟨_, rfl⟩ | ⟨_, _, rfl⟩ | ⟨_, _, rfl⟩
    · exact setErr_inv _ hs
    · exact setErr_inv _ hs
    · exact setErr_inv _ (loadKeys_inv _ hs)
  | desEnc slot => exact desCommand_inv hs h
  | desDec slot => exact desCommand_inv hs h
  | tdesEblk =>
    rcases execTdesEblk_cases h with ⟨_, rfl⟩ | ⟨_, rfl⟩
    · exact setErr_inv _ hs
    · exact setErr_inv _ (setBlock_inv _ hs)
  | tdesDblk =>
    rcases execTdesDblk_cases h with ⟨_, rfl⟩ | ⟨_, rfl⟩
    · exact setErr_inv _ hs
    · exact setErr_inv _ (setBlock_inv _ hs)
  | tdesEnc =>
    rcases execTdesEnc_cases h with ⟨_, rfl⟩ | ⟨_, _, rfl⟩ | ⟨_, hr, rfl⟩
    · exact setErr_inv _ hs
    · exact setErr_inv _ hs
    · exact bufferResult_inv hs (encryptedOutput_fits hr)
  | tdesDec =>
    rcases execTdesDec_cases h with
      ⟨_, rfl⟩ | ⟨_, _, rfl⟩ | ⟨_, _, _, rfl⟩ | ⟨_, _, _, _, rfl⟩ | ⟨out, _, hb, hr, hd, rfl⟩
    · exact setErr_inv _ hs
    · exact setErr_inv _ hs
    · exact setErr_inv _ hs
    · exact setErr_inv _ hs
    · exact bufferResult_inv hs (depadded_fits hb hr hd)

/-- A command word either runs its command or is ILLEGAL_COMMAND (R55, R117). -/
theorem execute_cases {w : Word} {s t : State} (h : execute w s = .next t) :
    (∃ i, decode w = .ok i ∧ exec i s = .next t) ∨ (∃ r, decode w = .error r ∧ t = setErr .illegalCommand s) := by
  cases hd : decode w with
  | ok i => simp only [execute, hd] at h; exact .inl ⟨i, rfl, h⟩
  | error r => simp only [execute, hd, raiseError_next] at h; exact .inr ⟨r, rfl, h⟩

theorem execute_inv {w : Word} {s t : State} (hs : s.Inv) (h : execute w s = .next t) : t.Inv := by
  rcases execute_cases h with ⟨i, _, hi⟩ | ⟨_, _, rfl⟩
  · exact exec_inv hs hi
  · exact setErr_inv _ hs

/-! ## The step -/

theorem transact_inv {x : HostTxn} {s t : State} (hs : s.Inv) (h : transact x s = .next t) : t.Inv := by
  rcases transact_cases h with ⟨_, _, hx⟩ | ⟨_, _, _, _, rfl | ⟨r, _, rfl⟩⟩ | ⟨_, _, rfl⟩ | ⟨_, _, _, ha, rfl⟩ |
    ⟨_, _, _, rfl⟩ | ⟨_, rfl⟩
  · exact execute_inv (nextEpoch_inv hs) hx
  · exact nextEpoch_inv hs
  · exact writeReg_inv r _ (nextEpoch_inv hs)
  · exact respond_inv _ hs
  · exact setByte_inv _ (nextEpoch_inv hs) ha
  · exact respond_inv _ hs
  · exact resetEngine_inv (nextEpoch_inv hs)

/-- No transaction touches the host's program or the parameters (R7, R122). -/
theorem transact_keeps_program_cfg {x : HostTxn} {s t : State} (h : transact x s = .next t) :
    t.program = s.program ∧ t.cfg = s.cfg := by
  rcases transact_cases h with ⟨_, _, hx⟩ | ⟨_, _, _, _, rfl | ⟨_, _, rfl⟩⟩ | ⟨_, _, rfl⟩ | ⟨_, _, _, _, rfl⟩ |
    ⟨_, _, _, rfl⟩ | ⟨_, rfl⟩
  · obtain ⟨hprogram, -, hcfg, -⟩ := execute_keeps_host hx
    exact ⟨hprogram, hcfg⟩
  all_goals simp

/-! ## The obligations -/

/-- Settles O13: a step is nothing or one transaction, and each transaction is made of updates that keep the invariant. -/
theorem stepKeepsInvariant : Obligations.StepKeepsInvariant := by
  intro s t hs h
  rcases step_cases h with ⟨_, rfl⟩ | ⟨x, rest, _, hx⟩
  · exact hs
  · exact transact_inv (setProgram_inv rest hs) hx

/-- Settles O9: the step drops the first transaction, and that transaction leaves the rest and the parameters. -/
theorem stepTakesOneTransaction : Obligations.StepTakesOneTransaction := by
  refine ⟨fun s t h => ?_, fun s => step_of_nil⟩
  rcases step_cases h with ⟨hp, rfl⟩ | ⟨x, rest, hp, hx⟩
  · simp [hp]
  · simpa [hp] using transact_keeps_program_cfg hx

/-- Settles O12: nothing is written at reset, and KSV, ERR and DST_LEN are 0. -/
theorem resetMeetsInvariant : Obligations.ResetMeetsInvariant :=
  ⟨by decide, Memory.reset_wf, rfl, Nat.zero_le _, nofun, Nat.zero_le _⟩

end Sys2Proof.Machine
end

section
/-!
SUPPORT. Positions of a byte buffer against positions of a value: bit k of byte j of a buffer is position 8j + k, for a
block and for a `Bits n` value with its zero tail.
-/

namespace Sys2Proof.Machine

/-! ## Blocks -/

/-- Position 8j + k of a buffer is position k of its byte j (R61). -/
theorem getBit_byte (bs : List Byte) (j : Nat) {k : Nat} (h1 : 1 ≤ k) (h8 : k ≤ 8) :
    getBit bs (8 * j + k) = bitAt (bs.getD j 0) k := by
  have hdiv : (8 * j + k - 1) / 8 = j := by omega
  have hmod : 7 - (8 * j + k - 1) % 8 = 8 - k := by omega
  rw [getBit, hdiv, hmod, bitAt]

/-- Position 8j + k of a block is position k of its byte j (R10, R41). -/
theorem bitAt_blockOfBytes (bs : List Byte) {j k : Nat} (hj : j < 8) (h1 : 1 ≤ k) (h8 : k ≤ 8) :
    bitAt (blockOfBytes bs) (8 * j + k) = bitAt (bs.getD j 0) k := by
  unfold blockOfBytes
  interval_cases j <;>
    simp (disch := omega) only [bitAt_append_left, bitAt_append_right, Nat.mul_zero, Nat.zero_add]

/-- Every position of a buffer is a position of one of its bytes. -/
theorem exists_byte_position {i : Nat} (h : 1 ≤ i) : ∃ j k, 1 ≤ k ∧ k ≤ 8 ∧ i = 8 * j + k :=
  ⟨(i - 1) / 8, (i - 1) % 8 + 1, by omega, by omega, by omega⟩

/-- Settles O35: position by position, both sides are a position of the same byte. -/
theorem blockBytesAndBits : Obligations.BlockBytesAndBits := by
  refine ⟨fun bs hlen => ⟨fun i h1 h64 => ?_, ?_⟩, fun v => ?_⟩
  · obtain ⟨j, k, hk1, hk8, rfl⟩ := exists_byte_position h1
    rw [bitAt_blockOfBytes bs (by omega) hk1 hk8, getBit_byte bs j hk1 hk8]
  · rw [bytesOfBlock_blockOfBytes bs hlen.ge, List.take_of_length_le hlen.le]
  · simpa using blockOfBytes_bytesOfBlock v []

/-! ## `Bits n` values -/

@[simp] theorem toBuffer_length {n : Nat} (v : BitVec n) : (toBuffer v).length = (n + 7) / 8 := by
  simp [toBuffer]

/-- The buffer holds the value shifted left into its whole bytes (R8, R65). -/
theorem getBit_toBuffer {n : Nat} (v : BitVec n) {i : Nat} (h1 : 1 ≤ i) (hi : i ≤ 8 * ((n + 7) / 8)) :
    getBit (toBuffer v) i = (v.toNat <<< (8 * ((n + 7) / 8) - n)).testBit (8 * ((n + 7) / 8) - i) := by
  obtain ⟨j, k, hk1, hk8, rfl⟩ := exists_byte_position h1
  have hj : j < (n + 7) / 8 := by omega
  have hpos : 8 * ((n + 7) / 8 - 1 - j) + (8 - k) = 8 * ((n + 7) / 8) - (8 * j + k) := by omega
  rw [getBit_byte _ j hk1 hk8, List.getD_eq_getElem _ _ (by simpa using hj)]
  simp only [toBuffer, List.getElem_map, List.getElem_range, bitAt, BitVec.getLsbD_ofNat, Nat.testBit_shiftRight, hpos]
  simp [show 8 - k < 8 by omega]

/-- Settles O36: the shift by the tail's length puts position i of the value at position i and zeros after n. -/
theorem bufferBitsAndZeroTail : Obligations.BufferBitsAndZeroTail := by
  refine fun n v => ⟨toBuffer_length v, fun i h1 hn => ?_, fun i hn hi => ?_⟩
  · have hle : 8 * ((n + 7) / 8) - n ≤ 8 * ((n + 7) / 8) - i := by omega
    have hsub : 8 * ((n + 7) / 8) - i - (8 * ((n + 7) / 8) - n) = n - i := by omega
    rw [getBit_toBuffer v h1 (by omega), Nat.testBit_shiftLeft, hsub, BitVec.testBit_toNat, bitAt]
    simp only [hle, decide_true, Bool.true_and]
  · have hlt : ¬ 8 * ((n + 7) / 8) - n ≤ 8 * ((n + 7) / 8) - i := by omega
    rw [getBit_toBuffer v (by omega) hi, Nat.testBit_shiftLeft]
    simp only [hlt, decide_false, Bool.false_and]

end Sys2Proof.Machine
end

section
/-!
SUPPORT. The registers and the status flags (10_state): what a host register access does, which command word is which
command, and what a command depends on. Every command runs as one of four updates of the state (`Effect`), chosen by its
operands alone, so ERR is never an input and the key registers are none while KSV = 0.
-/

namespace Sys2Proof.Machine

/-! ## The register window -/

/-- Past BLOCK_LO the window is unmapped (R24, R51). -/
theorem registerAt_of_ge {off : Nat} (h : 0x28 ≤ off) : registerAt off = none := by
  unfold registerAt
  split
  case h_11 => rfl
  all_goals omega

theorem accessibleOffset_of_aligned {off : Nat} (h4 : off % 4 = 0) (hle : off ≤ 0xFFC) : accessibleOffset off = true :=
  decide_eq_true ⟨h4, hle⟩

theorem writeRegister_of_ne_cmd {r : Reg} (hr : r ≠ .cmd) (w : Word) (s : State) :
    writeRegister r w s = .next (writeReg r w s) := by
  cases r with
  | cmd => exact absurd rfl hr
  | _ => rfl

theorem transact_regWrite_mapped {off : Nat} (r : Reg) (ha : accessibleOffset off = true) (hr : registerAt off = some r)
    (w : Word) (s : State) : transact (.regWrite off w) s = writeRegister r w (nextEpoch s) := by
  simp only [transact, regWrite, ha, hr, if_true]

theorem transact_regWrite_unmapped {off : Nat} (ha : accessibleOffset off = true) (hr : registerAt off = none)
    (w : Word) (s : State) : transact (.regWrite off w) s = .next (nextEpoch s) := by
  simp only [transact, regWrite, ha, hr, if_true]

theorem transact_regWrite_outside {off : Nat} (ha : accessibleOffset off = false) (w : Word) (s : State) :
    transact (.regWrite off w) s = .refused .registerAccessOutsideInterface := by
  simp only [transact, regWrite, ha, Bool.false_eq_true, if_false]

theorem transact_regRead_outside {off : Nat} (ha : accessibleOffset off = false) (s : State) :
    transact (.regRead off) s = .refused .registerAccessOutsideInterface := by
  simp only [transact, regRead, ha, Bool.false_eq_true, if_false]

theorem transact_regRead {off : Nat} (ha : accessibleOffset off = true) (s : State) :
    transact (.regRead off) s = .next (respond (.word (readOffset off s)) s) := by
  simp only [transact, regRead, ha, if_true]

/-- The register map as the host reads it (R51, R116); CMD and the unmapped offsets read 0. -/
theorem readOffset_eq (off : Nat) (s : State) :
    readOffset off s =
      if off = 0x04 then statusWord s else if off = 0x08 then s.keyAddr else if off = 0x0C then s.keyLen
      else if off = 0x10 then s.srcAddr else if off = 0x14 then s.srcLen else if off = 0x18 then s.dstAddr
      else if off = 0x1C then s.dstLen else if off = 0x20 then s.block.extractLsb' 32 32
      else if off = 0x24 then s.block.extractLsb' 0 32 else 0 := by
  by_cases h : 0x28 ≤ off
  · simp only [readOffset, registerAt_of_ge h]
    simp only [show ∀ n < 0x28, off ≠ n by omega, Nat.reduceLT, if_false]
  · interval_cases off <;> rfl

theorem statusWord_reset : statusWord State.reset = 0 := by decide

/-- Settles O10: each register is a field of State.reset, or 0 computed from two of them. -/
theorem resetRegisters : Obligations.ResetRegisters := by
  exact ⟨statusWord_reset, rfl, rfl, rfl, rfl, rfl, rfl, by decide, by decide⟩

/-- Settles O11: the step is `resetEngine`, which takes from the old state only what is not the engine's registers. -/
theorem resetTransaction : Obligations.ResetTransaction := by
  intro s rest h
  exact ⟨_, step_of_cons h, statusWord_reset, rfl, rfl, rfl, rfl, rfl, rfl, rfl, rfl, rfl, rfl, rfl⟩

/-- Settles O26: a fact about the four bits of ERR and the one of KSV. -/
theorem statusWordFields : Obligations.StatusWordFields := by
  intro s
  simp only [statusWord]
  generalize s.err = err
  generalize s.ksv = ksv
  revert err ksv
  decide

/-- Settles O27: by the register map, offset by offset. -/
theorem regWriteFollowsItsRule : Obligations.RegWriteFollowsItsRule := by
  rintro s w off rest hp u rfl
  rw [step_of_cons hp]
  refine ⟨?_, ?_, ?_, ?_, ?_, ?_, ?_, ?_, ?_, fun h28 h4 hle => ?_⟩
  · rintro rfl; exact transact_command w _
  · rintro rfl; exact transact_regWrite_mapped .keyAddr rfl rfl w _
  · rintro rfl; exact transact_regWrite_mapped .keyLen rfl rfl w _
  · rintro rfl; exact transact_regWrite_mapped .srcAddr rfl rfl w _
  · rintro rfl; exact transact_regWrite_mapped .srcLen rfl rfl w _
  · rintro rfl; exact transact_regWrite_mapped .dstAddr rfl rfl w _
  · rintro rfl; exact transact_regWrite_mapped .blockHi rfl rfl w _
  · rintro rfl; exact transact_regWrite_mapped .blockLo rfl rfl w _
  · rintro (rfl | rfl)
    · exact transact_regWrite_mapped .status rfl rfl w _
    · exact transact_regWrite_mapped .dstLen rfl rfl w _
  · exact transact_regWrite_unmapped (accessibleOffset_of_aligned h4 hle) (registerAt_of_ge h28) w _

/-- Settles O28: the read answers the register map's word, and only the host's list grows. -/
theorem regReadFollowsItsRule : Obligations.RegReadFollowsItsRule := by
  intro s off rest hp h4 hle
  rw [step_of_cons hp, transact_regRead (accessibleOffset_of_aligned h4 hle), readOffset_eq]
  rfl

/-! ## Command words -/

/-- A command word is its three fields side by side (R52). -/
theorem append_fields (w : Word) : rsvField w ++ slotField w ++ opField w = w := by
  rw [rsvField, slotField, opField, append_extract w 4 26 2, append_extract w 0 28 4, extract_all]

open Laws.EncodedFields in
theorem encode_fields (i : Instr) : Statement i := by
  cases i with
  | keyload => exact keyload
  | desEnc slot => exact desEnc slot
  | desDec slot => exact desDec slot
  | tdesEblk => exact tdesEblk
  | tdesDblk => exact tdesDblk
  | tdesEnc => exact tdesEnc
  | tdesDec => exact tdesDec

theorem decodeNoSlot_ok {w : Word} {i j : Instr} : decodeNoSlot w i = .ok j ↔ slotField w = 0 ∧ i = j := by
  unfold decodeNoSlot
  split_ifs with h
  · simp [h]
  · exact ⟨nofun, fun hs => absurd hs.1 h⟩

theorem decodeWithSlot_ok {w : Word} {i : BitVec 2 → Instr} {j : Instr} :
    decodeWithSlot w i = .ok j ↔ slotNamesSchedule (slotField w) = true ∧ i (slotField w) = j := by
  unfold decodeWithSlot
  split_ifs with h
  · simp [h]
  · exact ⟨nofun, fun hs => absurd hs.1 h⟩

open Laws.EncodedFields in
/-- A word that decodes has the fields of the command it decodes to (R52, R53). -/
theorem decode_fields {w : Word} {i : Instr} (h : decode w = .ok i) :
    opField w = opNumber i ∧ slotField w = slotNumber i ∧ rsvField w = 0 := by
  simp only [decode] at h
  split_ifs at h with hrsv
  split at h <;> rename_i hop <;> simp only [decodeNoSlot_ok, decodeWithSlot_ok, reduceCtorEq] at h <;>
    obtain ⟨hslot, rfl⟩ := h
  case h_2 | h_3 => exact ⟨BitVec.eq_of_toNat_eq hop, rfl, hrsv⟩
  all_goals exact ⟨BitVec.eq_of_toNat_eq hop, hslot, hrsv⟩

/-- The word of a command that a word decodes to is that word (R54). -/
theorem encode_of_decode {w : Word} {i : Instr} (h : decode w = .ok i) : encode i = w := by
  obtain ⟨hop, hslot, hrsv⟩ := decode_fields h
  obtain ⟨hop', hslot', hrsv'⟩ := encode_fields i
  rw [← append_fields w, ← append_fields (encode i), hop, hop', hslot, hslot', hrsv, hrsv']

/-! ## What a command depends on -/

/-- The four ways a command changes the engine (R57): it fails, it replaces BLOCK, it loads a triple key, or it stores
an output and loads a triple key. -/
inductive Effect where
  | fail (c : ErrCode)
  | block (x : Block)
  | load (k : TripleKey)
  | output (k : TripleKey) (out : List Byte)

/-- The state a command with this effect ends in. -/
def Effect.apply : Effect → State → State
  | .fail c, s => setErr c s
  | .block x, s => setErr .ok (setBlock x s)
  | .load k, s => setErr .ok (loadKeys k s)
  | .output k out, s => setErr .ok (loadKeys k (storeOutput out s))

/-- Two states in which a command reads the same operands (R57): the schedules count only while KSV = 1. -/
structure OperandsAgree (s u : State) : Prop where
  ksv : u.ksv = s.ksv
  keyAddr : u.keyAddr = s.keyAddr
  keyLen : u.keyLen = s.keyLen
  srcAddr : u.srcAddr = s.srcAddr
  srcLen : u.srcLen = s.srcLen
  dstAddr : u.dstAddr = s.dstAddr
  block : u.block = s.block
  mem : u.mem = s.mem
  cfg : u.cfg = s.cfg
  epoch : u.epoch = s.epoch
  ks1 : s.ksv = true → u.ks1 = s.ks1
  ks2 : s.ksv = true → u.ks2 = s.ks2
  ks3 : s.ksv = true → u.ks3 = s.ks3

/-- The outcomes `o` from `s` and `o'` from `u` are one effect. -/
def SameEffect (s u : State) (o o' : Host.Outcome State Fault Refusal) : Prop :=
  ∃ e : Effect, o = .next (e.apply s) ∧ o' = .next (e.apply u)

section
variable {s u : State}

namespace OperandsAgree

theorem inRange (h : OperandsAgree s u) (a n : Nat) : inRange u a n = inRange s a n := by
  rw [Machine.inRange, Machine.inRange, h.cfg]

theorem readBytes (h : OperandsAgree s u) (a n : Nat) : readBytes u a n = readBytes s a n :=
  readBytes_congr (readByte_congr h.mem h.epoch) n a

theorem keyOperand (h : OperandsAgree s u) : keyOperand u = keyOperand s := by
  rw [Machine.keyOperand, Machine.keyOperand, h.keyAddr, h.readBytes]

theorem sourceOperand (h : OperandsAgree s u) : sourceOperand u = sourceOperand s := by
  rw [Machine.sourceOperand, Machine.sourceOperand, h.srcAddr, h.srcLen, h.readBytes]

theorem keyInRange (h : OperandsAgree s u) : keyInRange u = keyInRange s := by
  rw [Machine.keyInRange, Machine.keyInRange, h.keyAddr, h.inRange]

theorem sourceInRange (h : OperandsAgree s u) : sourceInRange u = sourceInRange s := by
  rw [Machine.sourceInRange, Machine.sourceInRange, h.srcAddr, h.srcLen, h.inRange]

theorem destinationInRange (h : OperandsAgree s u) (n : Nat) : destinationInRange u n = destinationInRange s n := by
  rw [Machine.destinationInRange, Machine.destinationInRange, h.dstAddr, h.inRange]

theorem encryptedOutput (h : OperandsAgree s u) : encryptedOutput u = encryptedOutput s := by
  rw [Machine.encryptedOutput, Machine.encryptedOutput, h.keyOperand, h.sourceOperand, h.srcLen]

theorem decryptedBuffer (h : OperandsAgree s u) : decryptedBuffer u = decryptedBuffer s := by
  rw [Machine.decryptedBuffer, Machine.decryptedBuffer, h.keyOperand, h.sourceOperand, h.srcLen]

end OperandsAgree

/-! ### The shared operations -/

theorem sameEffect_raiseError (c : ErrCode) : SameEffect s u (raiseError c s) (raiseError c u) :=
  ⟨.fail c, rfl, rfl⟩

theorem sameEffect_setBlock (x : Block) : SameEffect s u (succeed (setBlock x s)) (succeed (setBlock x u)) :=
  ⟨.block x, rfl, rfl⟩

theorem sameEffect_finishBuffer (h : OperandsAgree s u) (out : List Byte) :
    SameEffect s u (finishBuffer out s) (finishBuffer out u) :=
  ⟨.output (keyOperand s) out, finishBuffer_eq out s, by rw [finishBuffer_eq, bufferResult, h.keyOperand, Effect.apply]⟩

theorem sameEffect_requireKeyLength {k : State → Host.Outcome State Fault Refusal} (h : OperandsAgree s u)
    (hk : SameEffect s u (k s) (k u)) : SameEffect s u (requireKeyLength k s) (requireKeyLength k u) := by
  by_cases hl : s.keyLen = 24
  · rwa [requireKeyLength_of_eq hl, requireKeyLength_of_eq (h.keyLen.trans hl)]
  · rw [requireKeyLength_of_ne hl, requireKeyLength_of_ne (h.keyLen ▸ hl)]
    exact sameEffect_raiseError _

theorem sameEffect_requireKeys {k k' : State → Host.Outcome State Fault Refusal} (h : OperandsAgree s u)
    (hk : s.ksv = true → SameEffect s u (k s) (k' u)) : SameEffect s u (requireKeys k s) (requireKeys k' u) := by
  cases hv : s.ksv with
  | true => rw [requireKeys_of_valid hv, requireKeys_of_valid (h.ksv.trans hv)]; exact hk hv
  | false => rw [requireKeys_of_invalid hv, requireKeys_of_invalid (h.ksv.trans hv)]; exact sameEffect_raiseError _

/-! ### The commands -/

theorem sameEffect_execKeyload (h : OperandsAgree s u) : SameEffect s u (execKeyload s) (execKeyload u) := by
  refine sameEffect_requireKeyLength h ?_
  simp only [h.keyInRange, h.keyOperand]
  split_ifs
  · exact ⟨.load (keyOperand s), rfl, rfl⟩
  · exact sameEffect_raiseError _

/-- SLOT = 3 names no schedule in either state; any other slot is read only while KSV = 1. -/
theorem sameEffect_desCommand (h : OperandsAgree s u) (dir : Direction) (slot : BitVec 2) :
    SameEffect s u (desCommand dir slot s) (desCommand dir slot u) := by
  have hslot : ∀ {K K'}, slotSchedule slot s = some K → slotSchedule slot u = some K' → (s.ksv = true → K' = K) →
      SameEffect s u (desCommand dir slot s) (desCommand dir slot u) := by
    intro K K' hs hu hK
    simp only [desCommand, hs, hu]
    refine sameEffect_requireKeys h fun hv => ?_
    rw [hK hv, h.block]
    exact sameEffect_setBlock _
  rcases slotSchedule_cases slot s with ⟨rfl, hs⟩ | ⟨rfl, hs⟩ | ⟨rfl, hs⟩ | ⟨rfl, _⟩
  · exact hslot hs rfl h.ks1
  · exact hslot hs rfl h.ks2
  · exact hslot hs rfl h.ks3
  · exact sameEffect_raiseError .illegalCommand

theorem sameEffect_execTdesEblk (h : OperandsAgree s u) : SameEffect s u (execTdesEblk s) (execTdesEblk u) := by
  refine sameEffect_requireKeys h fun hv => ?_
  rw [h.block, h.ks1 hv, h.ks2 hv, h.ks3 hv]
  exact sameEffect_setBlock _

theorem sameEffect_execTdesDblk (h : OperandsAgree s u) : SameEffect s u (execTdesDblk s) (execTdesDblk u) := by
  refine sameEffect_requireKeys h fun hv => ?_
  rw [h.block, h.ks1 hv, h.ks2 hv, h.ks3 hv]
  exact sameEffect_setBlock _

theorem sameEffect_execTdesEnc (h : OperandsAgree s u) : SameEffect s u (execTdesEnc s) (execTdesEnc u) := by
  refine sameEffect_requireKeyLength h ?_
  simp only [h.keyInRange, h.sourceInRange, h.destinationInRange, h.srcLen, h.encryptedOutput]
  split_ifs
  · exact sameEffect_finishBuffer h _
  · exact sameEffect_raiseError _

theorem sameEffect_execTdesDec (h : OperandsAgree s u) : SameEffect s u (execTdesDec s) (execTdesDec u) := by
  refine sameEffect_requireKeyLength h ?_
  simp only [h.keyInRange, h.sourceInRange, h.destinationInRange, h.srcLen, h.decryptedBuffer]
  split_ifs
  · exact sameEffect_raiseError _
  · cases depadded (decryptedBuffer s) with
    | none => exact sameEffect_raiseError _
    | some out => exact sameEffect_finishBuffer h out
  · exact sameEffect_raiseError _

theorem sameEffect_exec (h : OperandsAgree s u) (i : Instr) : SameEffect s u (exec i s) (exec i u) := by
  cases i with
  | keyload => exact sameEffect_execKeyload h
  | desEnc slot => exact sameEffect_desCommand h .encrypt slot
  | desDec slot => exact sameEffect_desCommand h .decrypt slot
  | tdesEblk => exact sameEffect_execTdesEblk h
  | tdesDblk => exact sameEffect_execTdesDblk h
  | tdesEnc => exact sameEffect_execTdesEnc h
  | tdesDec => exact sameEffect_execTdesDec h

/-- A command word has the same effect in two states with the same operands. -/
theorem sameEffect_execute (h : OperandsAgree s u) (w : Word) : SameEffect s u (execute w s) (execute w u) := by
  unfold execute
  cases decode w with
  | ok i => exact sameEffect_exec h i
  | error r => exact sameEffect_raiseError .illegalCommand

end

theorem OperandsAgree.refl (s : State) : OperandsAgree s s :=
  ⟨rfl, rfl, rfl, rfl, rfl, rfl, rfl, rfl, rfl, rfl, fun _ => rfl, fun _ => rfl, fun _ => rfl⟩

/-- A command word that completes has one of the four effects. -/
theorem execute_effect {w : Word} {s t : State} (h : execute w s = .next t) : ∃ e : Effect, t = e.apply s := by
  obtain ⟨e, he, -⟩ := sameEffect_execute (OperandsAgree.refl s) w
  exact ⟨e, Host.Outcome.next.inj (h.symm.trans he)⟩

/-! ## ERR -/

/-- ERR is no operand, and every effect replaces it (R16). -/
theorem execute_setAnyErr (w : Word) (err : BitVec 4) (s : State) : execute w { s with err := err } = execute w s := by
  have h : OperandsAgree s { s with err := err } :=
    ⟨rfl, rfl, rfl, rfl, rfl, rfl, rfl, rfl, rfl, rfl, fun _ => rfl, fun _ => rfl, fun _ => rfl⟩
  obtain ⟨e, hs, hu⟩ := sameEffect_execute h w
  have happly : e.apply { s with err := err } = e.apply s := by cases e <;> rfl
  rw [hs, hu, happly]

/-- Only a CMD write and Reset write ERR. -/
theorem transact_keeps_err {x : HostTxn} {s t : State} (hc : x.isCommand = false) (hr : x ≠ .reset)
    (h : transact x s = .next t) : t.err = s.err := by
  rcases transact_cases h with ⟨w, rfl, _⟩ | ⟨_, _, _, _, rfl | ⟨r, _, rfl⟩⟩ | ⟨_, _, rfl⟩ | ⟨_, _, _, _, rfl⟩ |
    ⟨_, _, _, rfl⟩ | ⟨rfl, _⟩
  · simp [HostTxn.isCommand] at hc
  · rfl
  · simp
  · rfl
  · rfl
  · rfl
  · exact absurd rfl hr

/-- Settles O25: no command reads ERR, and no other transaction but Reset writes it. -/
theorem errIsNotSticky : Obligations.ErrIsNotSticky := by
  refine ⟨execute_setAnyErr, fun s t x rest hp hc hr h => ?_⟩
  rw [step_of_cons hp] at h
  exact transact_keeps_err (s := { s with program := rest }) hc hr h

/-! ## KSV -/

theorem errNumber_eq_zero {c : ErrCode} : errNumber c = 0 ↔ c = .ok := by cases c <;> decide

/-- A key load that succeeds sets KSV (R17). -/
theorem keyLoad_sets_ksv {i : Instr} {s t : State} (hi : i ∈ [.keyload, .tdesEnc, .tdesDec]) (h : exec i s = .next t)
    (herr : t.err = 0) : t.ksv = true := by
  have hfail : ∀ c, c ≠ .ok → t ≠ setErr c s := by
    rintro c hc rfl
    exact hc (errNumber_eq_zero.mp herr)
  simp only [List.mem_cons, List.not_mem_nil, or_false] at hi
  rcases hi with rfl | rfl | rfl
  · rcases execKeyload_cases h with ⟨_, ht⟩ | ⟨_, _, ht⟩ | ⟨_, _, rfl⟩
    · exact absurd ht (hfail _ nofun)
    · exact absurd ht (hfail _ nofun)
    · rfl
  · rcases execTdesEnc_cases h with ⟨_, ht⟩ | ⟨_, _, ht⟩ | ⟨_, _, rfl⟩
    · exact absurd ht (hfail _ nofun)
    · exact absurd ht (hfail _ nofun)
    · rfl
  · rcases execTdesDec_cases h with
      ⟨_, ht⟩ | ⟨_, _, ht⟩ | ⟨_, _, _, ht⟩ | ⟨_, _, _, _, ht⟩ | ⟨_, _, _, _, _, rfl⟩
    · exact absurd ht (hfail _ nofun)
    · exact absurd ht (hfail _ nofun)
    · exact absurd ht (hfail _ nofun)
    · exact absurd ht (hfail _ nofun)
    · rfl

theorem Effect.apply_keeps_ksv (e : Effect) {s : State} (h : s.ksv = true) : (e.apply s).ksv = true := by
  cases e with
  | fail c => exact h
  | block x => exact h
  | load k => rfl
  | output k out => rfl

/-- Only Reset clears KSV (R17). -/
theorem transact_keeps_ksv {x : HostTxn} {s t : State} (hr : x ≠ .reset) (h : transact x s = .next t)
    (hv : s.ksv = true) : t.ksv = true := by
  rcases transact_cases h with ⟨_, _, hx⟩ | ⟨_, _, _, _, rfl | ⟨r, _, rfl⟩⟩ | ⟨_, _, rfl⟩ | ⟨_, _, _, _, rfl⟩ |
    ⟨_, _, _, rfl⟩ | ⟨rfl, _⟩
  · obtain ⟨e, rfl⟩ := execute_effect hx
    exact e.apply_keeps_ksv hv
  · exact hv
  · simpa using hv
  · exact hv
  · exact hv
  · exact hv
  · exact absurd rfl hr

theorem step_clearing_ksv {s t : State} (h : step s = .next t) (hs : s.ksv = true) (ht : t.ksv = false) :
    s.program.head? = some .reset := by
  rcases step_cases h with ⟨_, rfl⟩ | ⟨x, rest, hp, hx⟩
  · simp [hs] at ht
  · by_cases hr : x = .reset
    · rw [hp, hr, List.head?_cons]
    · simp [transact_keeps_ksv hr hx hs] at ht

/-- While KSV = 0 DES.ENC and DES.DEC with a slot that names a schedule report it and do nothing else (R17, R128). -/
theorem desCommand_of_invalid (dir : Direction) {slot : BitVec 2} {s : State} (h3 : slot ≠ 3) (hv : s.ksv = false) :
    desCommand dir slot s = raiseError .noKeySchedule s := by
  rcases slotSchedule_cases slot s with ⟨_, hs⟩ | ⟨_, hs⟩ | ⟨_, hs⟩ | ⟨hs, _⟩
  · simp only [desCommand, hs, requireKeys_of_invalid hv]
  · simp only [desCommand, hs, requireKeys_of_invalid hv]
  · simp only [desCommand, hs, requireKeys_of_invalid hv]
  · exact absurd hs h3

theorem execTdesEblk_of_invalid {s : State} (hv : s.ksv = false) : execTdesEblk s = raiseError .noKeySchedule s :=
  requireKeys_of_invalid hv

theorem execTdesDblk_of_invalid {s : State} (hv : s.ksv = false) : execTdesDblk s = raiseError .noKeySchedule s :=
  requireKeys_of_invalid hv

/-- The block commands without a key schedule (R17, R128). -/
theorem blockCommand_of_invalid {i : Instr} {s : State}
    (hi : i ∈ [.desEnc 0, .desEnc 1, .desEnc 2, .desDec 0, .desDec 1, .desDec 2, .tdesEblk, .tdesDblk])
    (hv : s.ksv = false) : exec i s = raiseError .noKeySchedule s := by
  simp only [List.mem_cons, List.not_mem_nil, or_false] at hi
  rcases hi with rfl | rfl | rfl | rfl | rfl | rfl | rfl | rfl
  · exact desCommand_of_invalid .encrypt (slot := 0) (by decide) hv
  · exact desCommand_of_invalid .encrypt (slot := 1) (by decide) hv
  · exact desCommand_of_invalid .encrypt (slot := 2) (by decide) hv
  · exact desCommand_of_invalid .decrypt (slot := 0) (by decide) hv
  · exact desCommand_of_invalid .decrypt (slot := 1) (by decide) hv
  · exact desCommand_of_invalid .decrypt (slot := 2) (by decide) hv
  · exact execTdesEblk_of_invalid hv
  · exact execTdesDblk_of_invalid hv

/-- Settles O24: of the effects those that load keys set KSV and none clears it; the block commands check it first. -/
theorem ksvIsSetByKeyLoadsAndClearedByReset : Obligations.KsvIsSetByKeyLoadsAndClearedByReset :=
  ⟨fun _ _ _ => keyLoad_sets_ksv, fun _ _ => step_clearing_ksv, fun _ _ hp => ⟨_, step_of_cons hp, rfl⟩,
    fun _ _ => blockCommand_of_invalid⟩

/-! ## The key registers -/

/-- KEY1..3 and KS1..3 are the same in both states. -/
abbrev SameKeys (s t : State) : Prop :=
  t.key1 = s.key1 ∧ t.key2 = s.key2 ∧ t.key3 = s.key3 ∧ t.ks1 = s.ks1 ∧ t.ks2 = s.ks2 ∧ t.ks3 = s.ks3

theorem desCommand_sameKeys {dir : Direction} {slot : BitVec 2} {s t : State} (h : desCommand dir slot s = .next t) :
    SameKeys s t := by
  rcases desCommand_cases h with ⟨_, rfl⟩ | ⟨_, _, rfl⟩ | ⟨_, _, _, rfl⟩ <;> simp [SameKeys]

/-- The commands that load no keys leave the key registers (R25, R57). -/
theorem exec_sameKeys {i : Instr} {s t : State} (hi : i ∉ [.keyload, .tdesEnc, .tdesDec]) (h : exec i s = .next t) :
    SameKeys s t := by
  cases i with
  | keyload => simp at hi
  | desEnc slot => exact desCommand_sameKeys h
  | desDec slot => exact desCommand_sameKeys h
  | tdesEblk => rcases execTdesEblk_cases h with ⟨_, rfl⟩ | ⟨_, rfl⟩ <;> simp [SameKeys]
  | tdesDblk => rcases execTdesDblk_cases h with ⟨_, rfl⟩ | ⟨_, rfl⟩ <;> simp [SameKeys]
  | tdesEnc => simp at hi
  | tdesDec => simp at hi

/-- The words of the three commands that load keys are the three that `loadsKeys` names. -/
theorem decode_loadsKeys {w : Word} {i : Instr} (hd : decode w = .ok i)
    (hw : (HostTxn.regWrite 0x00 w).loadsKeys = false) : i ∉ [.keyload, .tdesEnc, .tdesDec] := by
  obtain rfl := encode_of_decode hd
  intro hi
  simp only [List.mem_cons, List.not_mem_nil, or_false] at hi
  rcases hi with rfl | rfl | rfl <;> simp [HostTxn.loadsKeys, encode] at hw

theorem transact_sameKeys {x : HostTxn} {s t : State} (hl : x.loadsKeys = false) (hr : x ≠ .reset)
    (h : transact x s = .next t) : SameKeys s t := by
  rcases transact_cases h with ⟨w, rfl, hx⟩ | ⟨_, _, _, _, rfl | ⟨r, _, rfl⟩⟩ | ⟨_, _, rfl⟩ | ⟨_, _, _, _, rfl⟩ |
    ⟨_, _, _, rfl⟩ | ⟨rfl, _⟩
  · rcases execute_cases hx with ⟨i, hd, hi⟩ | ⟨_, _, rfl⟩
    · exact exec_sameKeys (s := nextEpoch s) (decode_loadsKeys hd hl) hi
    · simp [SameKeys]
  · simp [SameKeys]
  · simp [SameKeys]
  · simp [SameKeys]
  · simp [SameKeys]
  · simp [SameKeys]
  · exact absurd rfl hr

/-- Settles O31: only `loadKeys` and `resetEngine` write these registers. -/
theorem onlyKeyLoadsChangeTheKeys : Obligations.OnlyKeyLoadsChangeTheKeys := by
  intro s t x rest hp hl hr h
  rw [step_of_cons hp] at h
  exact transact_sameKeys (s := { s with program := rest }) hl hr h

/-! ## The key registers while KSV = 0 -/

/-- Contents of KEY1..3 and KS1..3. -/
structure KeyState where
  key1 : Block
  key2 : Block
  key3 : Block
  ks1 : Schedule
  ks2 : Schedule
  ks3 : Schedule

/-- The state with these contents of the key registers. -/
def KeyState.into (κ : KeyState) (s : State) : State :=
  withKeyState κ.key1 κ.key2 κ.key3 κ.ks1 κ.ks2 κ.ks3 s

/-- The outcome `o'` is `o`, or the same next state with KSV = 0 but for other key registers. -/
def SameButKeys (κ : KeyState) (o o' : Host.Outcome State Fault Refusal) : Prop :=
  o' = o ∨ ∃ t, t.ksv = false ∧ o = .next t ∧ o' = .next (κ.into t)

section
variable (κ : KeyState) {s : State}

/-- Other key registers are no other operands while KSV = 0. -/
theorem operandsAgree_into (hv : s.ksv = false) : OperandsAgree s (κ.into s) := by
  have hread : ∀ {p : Prop}, s.ksv = true → p := fun h => by simp [hv] at h
  exact ⟨rfl, rfl, rfl, rfl, rfl, rfl, rfl, rfl, rfl, rfl, hread, hread, hread⟩

/-- An effect that loads keys overwrites the key registers; the other two leave them and KSV. -/
theorem Effect.apply_sameButKeys (e : Effect) (hv : s.ksv = false) :
    SameButKeys κ (.next (e.apply s)) (.next (e.apply (κ.into s))) := by
  cases e with
  | fail c => exact .inr ⟨(Effect.fail c).apply s, hv, rfl, rfl⟩
  | block x => exact .inr ⟨(Effect.block x).apply s, hv, rfl, rfl⟩
  | load k => exact .inl rfl
  | output k out => exact .inl rfl

theorem execute_sameButKeys (w : Word) (hv : s.ksv = false) :
    SameButKeys κ (execute w s) (execute w (κ.into s)) := by
  obtain ⟨e, hs, hu⟩ := sameEffect_execute (operandsAgree_into κ hv) w
  rw [hs, hu]
  exact e.apply_sameButKeys κ hv

theorem writeReg_into (r : Reg) (w : Word) : writeReg r w (κ.into s) = κ.into (writeReg r w s) := by
  cases r <;> rfl

theorem readOffset_into (off : Nat) : readOffset off (κ.into s) = readOffset off s := by
  rw [readOffset_eq, readOffset_eq]
  rfl

theorem writeRegister_sameButKeys (r : Reg) (w : Word) (hv : s.ksv = false) :
    SameButKeys κ (writeRegister r w s) (writeRegister r w (κ.into s)) := by
  by_cases hr : r = .cmd
  · subst hr; exact execute_sameButKeys κ w hv
  · rw [writeRegister_of_ne_cmd hr, writeRegister_of_ne_cmd hr, writeReg_into]
    exact .inr ⟨writeReg r w s, by simpa using hv, rfl, rfl⟩

theorem transact_sameButKeys (x : HostTxn) (hv : s.ksv = false) :
    SameButKeys κ (transact x s) (transact x (κ.into s)) := by
  cases x with
  | regWrite off w =>
    cases ha : accessibleOffset off with
    | false => rw [transact_regWrite_outside ha, transact_regWrite_outside ha]; exact .inl rfl
    | true =>
      cases hr : registerAt off with
      | none =>
        rw [transact_regWrite_unmapped ha hr, transact_regWrite_unmapped ha hr]
        exact .inr ⟨nextEpoch s, hv, rfl, rfl⟩
      | some r =>
        rw [transact_regWrite_mapped r ha hr, transact_regWrite_mapped r ha hr]
        exact writeRegister_sameButKeys κ (s := nextEpoch s) r w hv
  | regRead off =>
    cases ha : accessibleOffset off with
    | false => rw [transact_regRead_outside ha, transact_regRead_outside ha]; exact .inl rfl
    | true =>
      rw [transact_regRead ha, transact_regRead ha, readOffset_into]
      exact .inr ⟨respond (.word (readOffset off s)) s, hv, rfl, rfl⟩
  | regOtherWidth off => exact .inl rfl
  | memWrite a b =>
    by_cases ha : a < s.cfg.memSize
    · exact .inr ⟨setByte a b (nextEpoch s), hv, if_pos ha, if_pos ha⟩
    · exact .inl ((if_neg ha).trans (if_neg ha).symm)
  | memRead a =>
    by_cases ha : a < s.cfg.memSize
    · exact .inr ⟨respond (.byte (readByte s a)) s, hv, if_pos ha, if_pos ha⟩
    · exact .inl ((if_neg ha).trans (if_neg ha).symm)
  | reset => exact .inl rfl

theorem step_sameButKeys (hv : s.ksv = false) : SameButKeys κ (step s) (step (κ.into s)) := by
  cases hp : s.program with
  | nil => rw [step_of_nil hp, step_of_nil (s := κ.into s) hp]; exact .inr ⟨s, hv, rfl, rfl⟩
  | cons x rest =>
    rw [step_of_cons hp, step_of_cons (s := κ.into s) hp]
    exact transact_sameButKeys κ x (s := { s with program := rest }) hv

end

/-- Settles O33: each kind of transaction ends in outcomes that are the same, or the same but for the key registers. -/
theorem keyStateIsUnobservableWhileInvalid : Obligations.KeyStateIsUnobservableWhileInvalid := by
  intro s k1 k2 k3 K1 K2 K3 hv
  rcases step_sameButKeys ⟨k1, k2, k3, K1, K2, K3⟩ hv with h | ⟨t, ht, hs, hu⟩
  · change step (withKeyState k1 k2 k3 K1 K2 K3 s) = step s at h
    rw [h]
    exact ⟨fun _ => .rfl, fun _ => .rfl, fun t ht => ⟨t, ht, .inl rfl⟩⟩
  · change step (withKeyState k1 k2 k3 K1 K2 K3 s) = .next (withKeyState k1 k2 k3 K1 K2 K3 t) at hu
    rw [hs, hu]
    refine ⟨fun _ => iff_of_false nofun nofun, fun _ => iff_of_false nofun nofun, ?_⟩
    rintro _ ⟨⟩
    exact ⟨_, rfl, .inr ⟨ht, rfl⟩⟩

end Sys2Proof.Machine
end

section
/-!
SUPPORT. The buffer memory (20_memory): what a host memory transaction does, which transactions leave the memory as it
was, and that a buffer command sees its operands' bytes and not where they stand.
-/

namespace Sys2Proof.Machine

/-! ## Register accesses outside the registers -/

theorem accessibleOffset_of_outside {off : Nat} (h : off % 4 ≠ 0 ∨ 0xFFC < off) : accessibleOffset off = false :=
  decide_eq_false (by omega)

/-- An unmapped offset reads 0 (R24). -/
theorem readOffset_of_ge {off : Nat} (h : 0x28 ≤ off) (s : State) : readOffset off s = 0 := by
  rw [readOffset, registerAt_of_ge h]

/-- Settles O29: by the alignment and the bound of the offset, and the register map past BLOCK_LO. -/
theorem otherRegisterAccessesAreRefused : Obligations.OtherRegisterAccessesAreRefused := by
  refine fun s off w rest => ⟨fun hp => step_of_cons hp, fun hout hp => ?_, fun h28 h4 hle => ?_⟩
  · have ha := accessibleOffset_of_outside hout
    rcases hp with hp | hp
    · rw [step_of_cons hp, transact_regWrite_outside ha]
    · rw [step_of_cons hp, transact_regRead_outside ha]
  · have ha := accessibleOffset_of_aligned h4 hle
    refine ⟨fun hp => ?_, fun hp => ?_⟩
    · rw [step_of_cons hp, transact_regWrite_unmapped ha (registerAt_of_ge h28), nextEpoch]
    · rw [step_of_cons hp, transact_regRead ha, readOffset_of_ge h28, respond]

/-! ## MemWrite and MemRead -/

section
variable {s : State} {a : Nat} {b : Byte}

theorem transact_memWrite (ha : a < s.cfg.memSize) :
    transact (.memWrite a b) s = .next (setByte a b (nextEpoch s)) :=
  if_pos ha

theorem transact_memWrite_outside (ha : s.cfg.memSize ≤ a) :
    transact (.memWrite a b) s = .fault .hostAddressOutsideMemory :=
  if_neg ha.not_gt

theorem transact_memRead (ha : a < s.cfg.memSize) :
    transact (.memRead a) s = .next (respond (.byte (readByte s a)) s) :=
  if_pos ha

theorem transact_memRead_outside (ha : s.cfg.memSize ≤ a) :
    transact (.memRead a) s = .fault .hostAddressOutsideMemory :=
  if_neg ha.not_gt

end

@[simp] theorem readByte_setByte_self (a : Nat) (b : Byte) (s : State) : readByte (setByte a b s) a = b := by
  simp [readByte]

/-- Settles O30: each transaction is one update, or a fault from MEM_SIZE on. -/
theorem hostMemoryTransactions : Obligations.HostMemoryTransactions := by
  refine fun s a b rest => ⟨fun hp ha => ?_, fun hp ha => ?_, fun hp ha => ?_⟩
  · refine ⟨_, (step_of_cons hp).trans (transact_memWrite ha), rfl, readByte_setByte_self a b _, fun a' hne => ?_⟩
    exact Memory.lookup_store_ne s.mem b hne
  · exact (step_of_cons hp).trans (transact_memRead ha)
  · rcases hp with hp | hp
    · exact (step_of_cons hp).trans (transact_memWrite_outside ha)
    · exact (step_of_cons hp).trans (transact_memRead_outside ha)

/-! ## What leaves the memory -/

theorem desCommand_keeps_mem {dir : Direction} {slot : BitVec 2} {s t : State} (h : desCommand dir slot s = .next t) :
    t.mem = s.mem := by
  rcases desCommand_cases h with ⟨_, rfl⟩ | ⟨_, _, rfl⟩ | ⟨_, _, _, rfl⟩ <;> rfl

/-- The commands without a destination range leave the memory (R57). -/
theorem exec_keeps_mem {i : Instr} {s t : State} (henc : i ≠ .tdesEnc) (hdec : i ≠ .tdesDec)
    (h : exec i s = .next t) : t.mem = s.mem := by
  cases i with
  | keyload =>
    rcases execKeyload_cases h with ⟨_, rfl⟩ | ⟨_, _, rfl⟩ | ⟨_, _, rfl⟩ <;> rfl
  | desEnc slot => exact desCommand_keeps_mem h
  | desDec slot => exact desCommand_keeps_mem h
  | tdesEblk =>
    rcases execTdesEblk_cases h with ⟨_, rfl⟩ | ⟨_, rfl⟩ <;> rfl
  | tdesDblk =>
    rcases execTdesDblk_cases h with ⟨_, rfl⟩ | ⟨_, rfl⟩ <;> rfl
  | tdesEnc => exact absurd rfl henc
  | tdesDec => exact absurd rfl hdec

/-- The words of the two buffer commands are the two that `writesMemory` names. -/
theorem decode_writesMemory {w : Word} {i : Instr} (hd : decode w = .ok i)
    (hw : (HostTxn.regWrite 0x00 w).writesMemory = false) : i ≠ .tdesEnc ∧ i ≠ .tdesDec := by
  obtain rfl := encode_of_decode hd
  constructor
  · rintro rfl; simp [HostTxn.writesMemory, encode] at hw
  · rintro rfl; simp [HostTxn.writesMemory, encode] at hw

theorem transact_keeps_mem {x : HostTxn} {s t : State} (hw : x.writesMemory = false) (h : transact x s = .next t) :
    t.mem = s.mem := by
  rcases transact_cases h with ⟨w, rfl, hx⟩ | ⟨_, _, _, _, rfl | ⟨r, _, rfl⟩⟩ | ⟨_, _, rfl⟩ | ⟨_, _, rfl, _⟩ |
    ⟨_, _, _, rfl⟩ | ⟨_, rfl⟩
  · rcases execute_cases hx with ⟨i, hd, hi⟩ | ⟨_, _, rfl⟩
    · obtain ⟨henc, hdec⟩ := decode_writesMemory hd hw
      exact exec_keeps_mem (s := nextEpoch s) henc hdec hi
    · rfl
  · rfl
  · exact writeReg_mem r _ _
  · rfl
  · simp [HostTxn.writesMemory] at hw
  · rfl
  · rfl

/-- Settles O32: only `setByte` and `storeOutput` write the memory. -/
theorem onlyWritesChangeMemory : Obligations.OnlyWritesChangeMemory := by
  intro s t x rest hp hw h
  rw [step_of_cons hp] at h
  exact transact_keeps_mem (s := { s with program := rest }) hw h

/-! ## A buffer command sees bytes, not places -/

/-- Two states in which a buffer command has the same key and source, wherever these stand (R37, R57). -/
structure BufferOperandsAgree (s s' : State) : Prop where
  keyLen : s'.keyLen = s.keyLen
  srcLen : s'.srcLen = s.srcLen
  key : keyOperand s' = keyOperand s
  source : sourceOperand s' = sourceOperand s

/-- The outcomes `o` from `s` and `o'` from `s'` are one failure or one output. -/
inductive SameBufferOutcome (s s' : State) : (o o' : Host.Outcome State Fault Refusal) → Prop where
  | fail {c : ErrCode} (hc : c ≠ .ok) : SameBufferOutcome s s' (.next (setErr c s)) (.next (setErr c s'))
  | output (out : List Byte) :
    SameBufferOutcome s s' (.next (bufferResult out s)) (.next (bufferResult out s'))

theorem ne_addressFault {o : Host.Outcome State Fault Refusal} {s t : State} (h : o = .next t) (h6 : t.err ≠ 6) :
    o ≠ .next (setErr .addressFault s) := by
  rintro rfl
  cases h
  exact h6 rfl

section
variable {s s' : State}

namespace BufferOperandsAgree

theorem encryptedOutput (h : BufferOperandsAgree s s') : encryptedOutput s' = encryptedOutput s := by
  rw [Machine.encryptedOutput, Machine.encryptedOutput, h.key, h.source, h.srcLen]

theorem decryptedBuffer (h : BufferOperandsAgree s s') : decryptedBuffer s' = decryptedBuffer s := by
  rw [Machine.decryptedBuffer, Machine.decryptedBuffer, h.key, h.source, h.srcLen]

theorem badCiphertextLength (h : BufferOperandsAgree s s') : badCiphertextLength s' ↔ badCiphertextLength s := by
  rw [Machine.badCiphertextLength, Machine.badCiphertextLength, h.srcLen]

end BufferOperandsAgree

/-- Past the address check TDES.ENC looks at KEY_LEN alone. -/
theorem sameBufferOutcome_execTdesEnc (h : BufferOperandsAgree s s')
    (hf : execTdesEnc s ≠ .next (setErr .addressFault s)) (hf' : execTdesEnc s' ≠ .next (setErr .addressFault s')) :
    SameBufferOutcome s s' (execTdesEnc s) (execTdesEnc s') := by
  by_cases hk : s.keyLen = 24
  · have hk' := h.keyLen.trans hk
    have hr : encRangesOk s = true := by_contra fun hr => hf (execTdesEnc_addressFault hk hr)
    have hr' : encRangesOk s' = true := by_contra fun hr => hf' (execTdesEnc_addressFault hk' hr)
    rw [execTdesEnc_eq hk hr, execTdesEnc_eq hk' hr', h.encryptedOutput]
    exact .output _
  · rw [execTdesEnc, execTdesEnc, requireKeyLength_of_ne hk, requireKeyLength_of_ne (h.keyLen ▸ hk)]
    exact .fail nofun

/-- Past the address check TDES.DEC looks at the two lengths and at the last decrypted byte. -/
theorem sameBufferOutcome_execTdesDec (h : BufferOperandsAgree s s')
    (hf : execTdesDec s ≠ .next (setErr .addressFault s)) (hf' : execTdesDec s' ≠ .next (setErr .addressFault s')) :
    SameBufferOutcome s s' (execTdesDec s) (execTdesDec s') := by
  by_cases hk : s.keyLen = 24
  · have hk' := h.keyLen.trans hk
    by_cases hb : badCiphertextLength s
    · rw [execTdesDec_badLength hk hb, execTdesDec_badLength hk' (h.badCiphertextLength.mpr hb)]
      exact .fail nofun
    · have hb' := h.badCiphertextLength.not.mpr hb
      have hr : decRangesOk s = true := by_contra fun hr => hf (execTdesDec_addressFault hk hb hr)
      have hr' : decRangesOk s' = true := by_contra fun hr => hf' (execTdesDec_addressFault hk' hb' hr)
      have hpad := congrArg depadded h.decryptedBuffer
      cases hd : depadded (decryptedBuffer s) with
      | none =>
        rw [execTdesDec_badPadding hk hb hr hd, execTdesDec_badPadding hk' hb' hr' (hpad.trans hd)]
        exact .fail nofun
      | some out =>
        rw [execTdesDec_eq hk hb hr hd, execTdesDec_eq hk' hb' hr' (hpad.trans hd)]
        exact .output out
  · rw [execTdesDec, execTdesDec, requireKeyLength_of_ne hk, requireKeyLength_of_ne (h.keyLen ▸ hk)]
    exact .fail nofun

theorem sameBufferOutcome_exec {i : Instr} (hi : i = .tdesEnc ∨ i = .tdesDec) (h : BufferOperandsAgree s s')
    (hf : exec i s ≠ .next (setErr .addressFault s)) (hf' : exec i s' ≠ .next (setErr .addressFault s')) :
    SameBufferOutcome s s' (exec i s) (exec i s') := by
  rcases hi with rfl | rfl
  · exact sameBufferOutcome_execTdesEnc h hf hf'
  · exact sameBufferOutcome_execTdesDec h hf hf'

end

/-- DST_LEN is the output's length as a 32-bit number, so it never counts past the output. -/
theorem bufferResult_dstLen_le (out : List Byte) (s : State) : (bufferResult out s).dstLen.toNat ≤ out.length :=
  Nat.mod_le _ _

theorem readBytes_bufferResult_take {out : List Byte} {n : Nat} (h : n ≤ out.length) (s : State) :
    readBytes (bufferResult out s) s.dstAddr.toNat n = out.take n := by
  rw [← readBytes_take _ _ _ _ h, readBytes_bufferResult]

/-- Settles O57: the command ends in the same failure or the same output in both states, and reading an output back
from its destination gives it, wherever that is. -/
theorem bufferResultsIgnorePlacement : Obligations.BufferResultsIgnorePlacement := by
  intro i s s' t t' hi hkeyLen hkey hsrcLen hsrc _ ht ht6 ht' ht6'
  have hops : BufferOperandsAgree s s' :=
    ⟨hkeyLen.symm, hsrcLen.symm, congrArg tripleKeyOfBytes hkey.symm, hsrc.symm⟩
  have hsame := sameBufferOutcome_exec hi hops (ne_addressFault ht ht6) (ne_addressFault ht' ht6')
  rw [ht, ht'] at hsame
  cases hsame with
  | fail hc => exact ⟨rfl, fun herr => absurd (errNumber_eq_zero.mp herr) hc⟩
  | output out =>
    have hlen := bufferResult_dstLen_le out s
    refine ⟨rfl, fun _ => ⟨rfl, ?_, ?_⟩⟩
    · rw [readBytes_bufferResult_take hlen, readBytes_bufferResult_take hlen]
    · simp [bufferResult, hops.key]

end Sys2Proof.Machine
end

section
/-!
SUPPORT. The encoding (30_encoding): the decoder answers a command exactly on the word of that command where it is
well-formed, which words are none, and what the pseudo-instructions write.
-/

namespace Sys2Proof.Machine

/-! ## Decode and encode -/

/-- The decoder on the word of any command: only SLOT = 3 is not read back (R54). -/
theorem decode_encode (i : Instr) :
    decode (encode i) = if i.wellFormed then .ok i else .error .slotNamesNoSchedule := by
  cases i with
  | keyload => exact decode_word_keyload
  | desEnc slot => revert slot; decide
  | desDec slot => revert slot; decide
  | tdesEblk => exact decode_word_tdesEblk
  | tdesDblk => exact decode_word_tdesDblk
  | tdesEnc => exact decode_word_tdesEnc
  | tdesDec => exact decode_word_tdesDec

theorem decode_encode_of_wellFormed {i : Instr} (h : i.wellFormed = true) : decode (encode i) = .ok i := by
  rw [decode_encode, if_pos h]

theorem wellFormed_of_decode {w : Word} {i : Instr} (h : decode w = .ok i) : i.wellFormed = true := by
  rw [← encode_of_decode h, decode_encode] at h
  by_contra hwf
  rw [if_neg hwf] at h
  cases h

/-- Settles O2: a word is its three fields, so the word a command was read from is the command's own word, and there
the decoder is known. -/
theorem decodeEncodeAgree : Obligations.DecodeEncodeAgree :=
  ⟨fun _ => decode_encode_of_wellFormed, fun _ _ h => ⟨wellFormed_of_decode h, encode_of_decode h⟩⟩

/-! ## The eleven command words -/

/-- The words R54 lists, each with its command. -/
def commandWords : List (Word × Instr) :=
  [(0x00000001, .keyload),
   (0x00000002, .desEnc 0), (0x00000012, .desEnc 1), (0x00000022, .desEnc 2),
   (0x00000003, .desDec 0), (0x00000013, .desDec 1), (0x00000023, .desDec 2),
   (0x00000004, .tdesEblk), (0x00000005, .tdesDblk), (0x00000006, .tdesEnc), (0x00000007, .tdesDec)]

theorem decode_of_mem_commandWords : ∀ p ∈ commandWords, decode p.1 = .ok p.2 := by decide

theorem mem_commandWords_of_wellFormed {i : Instr} (h : i.wellFormed = true) : (encode i, i) ∈ commandWords := by
  cases i with
  | desEnc slot => revert slot; decide
  | desDec slot => revert slot; decide
  | keyload | tdesEblk | tdesDblk | tdesEnc | tdesDec => decide

/-- Settles O1: a command that a word decodes to is well-formed and the word is its own, so the pair is in the list. -/
theorem elevenWordsAreCommands : Obligations.ElevenWordsAreCommands := by
  refine fun w i => ⟨fun h => ?_, decode_of_mem_commandWords (w, i)⟩
  obtain rfl := encode_of_decode h
  exact mem_commandWords_of_wellFormed (wellFormed_of_decode h)

/-- Settles O3: the words of R53 and R54, and the word of DES.ENC with SLOT = 3. -/
theorem specWordsDecode : Obligations.SpecWordsDecode :=
  ⟨decode_word_keyload, decode_word_desEnc_slot1, decode_word_desDec_slot2, decode_word_tdesEblk,
    decode_word_tdesDblk, decode_word_tdesEnc, decode_word_tdesDec, decode_encode (.desEnc 3)⟩

/-! ## The ILLEGAL words -/

section
open Laws.EncodedFields

/-- OP 0 and 8 to 15 are no command (R53). -/
theorem opNumber_bounds (i : Instr) : 1 ≤ (opNumber i).toNat ∧ (opNumber i).toNat ≤ 7 := by
  cases i <;> simp only [opNumber] <;> decide

theorem slotNumber_le_two {i : Instr} (h : i.wellFormed = true) : (slotNumber i).toNat ≤ 2 := by
  cases i with
  | desEnc slot => exact of_decide_eq_true h
  | desDec slot => exact of_decide_eq_true h
  | keyload | tdesEblk | tdesDblk | tdesEnc | tdesDec => decide

/-- Only DES.ENC and DES.DEC have a SLOT (R52). -/
theorem slotNumber_eq_zero {i : Instr} (henc : (opNumber i).toNat ≠ 2) (hdec : (opNumber i).toNat ≠ 3) :
    (slotNumber i).toNat = 0 := by
  cases i with
  | desEnc slot => exact absurd rfl henc
  | desDec slot => exact absurd rfl hdec
  | keyload | tdesEblk | tdesDblk | tdesEnc | tdesDec => rfl

/-- The fields of a word that decodes, as numbers: none of the classes of R55 has them. -/
theorem decode_field_bounds {w : Word} {i : Instr} (h : decode w = .ok i) :
    rsvField w = 0 ∧ (1 ≤ (opField w).toNat ∧ (opField w).toNat ≤ 7) ∧ (slotField w).toNat ≤ 2 ∧
    ((opField w).toNat ≠ 2 → (opField w).toNat ≠ 3 → (slotField w).toNat = 0) := by
  obtain ⟨hop, hslot, hrsv⟩ := decode_fields h
  rw [hop, hslot]
  exact ⟨hrsv, opNumber_bounds i, slotNumber_le_two (wellFormed_of_decode h), slotNumber_eq_zero⟩

end

theorem execute_of_illegal {w : Word} {r : IllegalWord} (h : decode w = .error r) (s : State) :
    execute w s = .next (setErr .illegalCommand s) := by
  rw [execute, h, raiseError]

/-- Settles O4: a word that decodes has a command's fields, which are in no class of R55. -/
theorem illegalWordsOnlySetErr : Obligations.IllegalWordsOnlySetErr := by
  refine ⟨fun w hw => ?_, fun w r s h => execute_of_illegal h s⟩
  cases hd : decode w with
  | error r => exact ⟨r, rfl⟩
  | ok i =>
    obtain ⟨hrsv, ⟨hop1, hop7⟩, hslot2, hslot0⟩ := decode_field_bounds hd
    simp only [rsvField, opField, slotField] at hrsv hop1 hop7 hslot2 hslot0
    rcases hw with h | h | h | ⟨-, h⟩ | ⟨henc, hdec, h⟩
    · exact absurd hrsv h
    · omega
    · omega
    · omega
    · exact absurd (hslot0 henc hdec) h

/-! ## The pseudo-instructions -/

/-- The SLOT field of a word, for a slot given as a number (R60). -/
theorem withSlot_ofNat (op : Word) {n : Nat} (h : n < 4) :
    withSlot op (BitVec.ofNat 2 n) = op ||| (BitVec.ofNat 32 n <<< 4) := by
  rw [withSlot, BitVec.setWidth_ofNat_of_le_of_lt (by decide) h]

/-- Settles O34: each line is its definition; `k - 1` fits the SLOT field. -/
theorem pseudoInstructionExpansions : Obligations.PseudoInstructionExpansions := by
  refine ⟨rfl, fun k _ hk => ?_, rfl, rfl, rfl, rfl, fun _ => rfl, fun _ _ => rfl, fun _ _ _ _ => rfl, fun _ _ _ _ => rfl⟩
  have hslot : k - 1 < 4 := by omega
  constructor
  · rw [lineCommand, encode, withSlot_ofNat _ hslot]
    rfl
  · rw [lineCommand, encode, withSlot_ofNat _ hslot]
    rfl

end Sys2Proof.Machine
end

section
/-!
SUPPORT. Bit access and the permutation engine (40_bitvector_permutation): what one bit of a buffer is after putBit, the
byte-buffer permute bit by bit, and the two block permutations as inverse tables.
-/

namespace Sys2Proof.Machine

/-! ## putBit -/

@[simp] theorem putBit_length (buf : List Byte) (idx : Nat) (val : Bool) : (putBit buf idx val).length = buf.length :=
  List.length_modify ..

/-- Byte j of a buffer in which byte k was changed. -/
theorem getD_modify {buf : List Byte} (f : Byte → Byte) {k : Nat} (hk : k < buf.length) (j : Nat) :
    (buf.modify k f).getD j 0 = if k = j then f (buf.getD j 0) else buf.getD j 0 := by
  rw [List.getD_eq_getElem?_getD, List.getD_eq_getElem?_getD, List.getElem?_modify]
  by_cases h : k = j
  · subst h
    simp [List.getElem?_eq_getElem hk]
  · simp [h]

/-- R62: only bit `7 - (idx - 1) mod 8` of byte `(idx - 1) div 8` changes. -/
theorem getBit_putBit {buf : List Byte} {idx j : Nat} (val : Bool) (h1 : 1 ≤ idx) (hidx : idx ≤ 8 * buf.length)
    (hj : 1 ≤ j) : getBit (putBit buf idx val) j = if j = idx then val else getBit buf j := by
  have hbyte : (idx - 1) / 8 < buf.length := by omega
  rw [getBit, putBit, getD_modify _ hbyte, getBit]
  by_cases hsame : (idx - 1) / 8 = (j - 1) / 8
  · have hbit : 7 - (j - 1) % 8 = 7 - (idx - 1) % 8 ↔ j = idx := by omega
    simp only [if_pos hsame, getLsbD_setByteBit _ _ _ (show 7 - (j - 1) % 8 < 8 by omega), hbit]
  · have hne : j ≠ idx := fun h => hsame (h ▸ rfl)
    rw [if_neg hsame, if_neg hne]

/-- Settles O37: `getBit_putBit` at the position written and at any other. -/
theorem putBitChangesOneBit : Obligations.PutBitChangesOneBit := by
  refine fun buf idx val h1 hidx => ⟨putBit_length .., ?_, fun j hj _ hne => ?_⟩
  · rw [getBit_putBit val h1 hidx h1, if_pos rfl]
  · rw [getBit_putBit val h1 hidx hj, if_neg hne]

/-! ## The byte-buffer permute -/

/-- Two buffers of one length with the same bits are the same. -/
theorem ext_getBit {a b : List Byte} (hlen : a.length = b.length)
    (h : ∀ i, 1 ≤ i → i ≤ 8 * a.length → getBit a i = getBit b i) : a = b := by
  refine List.ext_getElem hlen fun j hja hjb => ext_bitAt fun k hk1 hk8 => ?_
  have hbit := h (8 * j + k) (by omega) (by omega)
  rwa [getBit_byte a j hk1 hk8, getBit_byte b j hk1 hk8, List.getD_eq_getElem _ _ hja, List.getD_eq_getElem _ _ hjb]
    at hbit

@[simp] theorem permuteLoop_length (input : List Byte) (table : List Nat) :
    ∀ (i : Nat) (output : List Byte), (permuteLoop input table i output).length = output.length := by
  induction table with
  | nil => exact fun _ _ => rfl
  | cons p rest ih => exact fun i output => (ih _ _).trans (putBit_length ..)

/-- The loop writes the positions from `i` on, one per entry of the table, and no other (R64). -/
theorem getBit_permuteLoop (input : List Byte) (table : List Nat) {j : Nat} (hj : 1 ≤ j) :
    ∀ (i : Nat) (output : List Byte), 1 ≤ i → i + table.length ≤ 8 * output.length + 1 →
      getBit (permuteLoop input table i output) j =
        if i ≤ j ∧ j < i + table.length then getBit input (table.getD (j - i) 0) else getBit output j := by
  induction table with
  | nil =>
    intro i output _ _
    rw [if_neg (by simp), permuteLoop]
  | cons p rest ih =>
    intro i output hi hfits
    rw [List.length_cons] at hfits ⊢
    rw [permuteLoop, ih _ _ (by omega) (by rw [putBit_length]; omega), getBit_putBit _ hi (by omega) hj]
    by_cases hlater : i + 1 ≤ j ∧ j < i + 1 + rest.length
    · have hsub : j - i = j - (i + 1) + 1 := by omega
      rw [if_pos hlater, if_pos (by omega), hsub, List.getD_cons_succ]
    · rw [if_neg hlater]
      by_cases hji : j = i
      · subst hji
        rw [if_pos rfl, if_pos (by omega), Nat.sub_self, List.getD_cons_zero]
      · rw [if_neg hji, if_neg (by omega)]

@[simp] theorem maskTail_length (n : Nat) (output : List Byte) : (maskTail n output).length = output.length := by
  unfold maskTail
  split
  · rfl
  · exact List.length_modify ..

/-- Position `k` of the mask `0xFF << s` is 1 before the last `s` positions. -/
theorem bitAt_tailMask (s : Nat) {k : Nat} (h1 : 1 ≤ k) (h8 : k ≤ 8) :
    bitAt ((0xFF : Byte) <<< s) k = decide (k ≤ 8 - s) := by
  change bitAt (BitVec.allOnes 8 <<< s) k = _
  rw [bitAt, BitVec.getLsbD_shiftLeft, BitVec.getLsbD_allOnes]
  have hlt : 8 - k < s ↔ ¬ k ≤ 8 - s := by omega
  simp only [show 8 - k < 8 by omega, show 8 - k - s < 8 by omega, hlt, decide_not, decide_true, Bool.not_not,
    Bool.true_and, Bool.and_true]

@[simp] theorem bitAt_and {n : Nat} (v w : BitVec n) (i : Nat) : bitAt (v &&& w) i = (bitAt v i && bitAt w i) := by
  simp [bitAt]

/-- The mask keeps positions 1..n and clears the tail (R64). -/
theorem getBit_maskTail {n : Nat} {output : List Byte} (hlen : output.length = (n + 7) / 8) {i : Nat} (h1 : 1 ≤ i)
    (hi : i ≤ 8 * ((n + 7) / 8)) : getBit (maskTail n output) i = (decide (i ≤ n) && getBit output i) := by
  unfold maskTail
  split
  · next hn => simp [show i ≤ n by omega]
  · next hn =>
    obtain ⟨j, k, hk1, hk8, rfl⟩ := exists_byte_position h1
    rw [getBit_byte _ j hk1 hk8, getBit_byte _ j hk1 hk8, getD_modify _ (by omega)]
    by_cases hlast : (n + 7) / 8 - 1 = j
    · have hkn : k ≤ 8 - (8 - n % 8) ↔ 8 * j + k ≤ n := by omega
      rw [if_pos hlast, bitAt_and, bitAt_tailMask _ hk1 hk8, Bool.and_comm, decide_eq_decide.mpr hkn]
    · rw [if_neg hlast, decide_eq_true (show 8 * j + k ≤ n by omega), Bool.true_and]

@[simp] theorem permuteBuffer_length (input : List Byte) (table : List Nat) (n : Nat) :
    (permuteBuffer input table n).length = (n + 7) / 8 := by
  simp [permuteBuffer]

/-- Positions 1..n of the source's permute are the table's positions of its input, and its tail is zero (R64). -/
theorem getBit_permuteBuffer (input : List Byte) {table : List Nat} {n : Nat} (hlen : table.length = n) {i : Nat}
    (h1 : 1 ≤ i) (hi : i ≤ 8 * ((n + 7) / 8)) :
    getBit (permuteBuffer input table n) i = (decide (i ≤ n) && getBit input (table.getD (i - 1) 0)) := by
  rw [permuteBuffer, getBit_maskTail (by simp) h1 hi,
    getBit_permuteLoop _ _ h1 _ _ le_rfl (by rw [List.length_replicate]; omega)]
  by_cases hn : i ≤ n
  · rw [if_pos (by omega)]
  · simp [hn]

/-- Entry i of a table of in-range positions is in range. -/
theorem getD_mem_range {table : List Nat} {m : Nat} (hrange : ∀ p ∈ table, 1 ≤ p ∧ p ≤ m) {i : Nat} (h1 : 1 ≤ i)
    (hi : i ≤ table.length) : 1 ≤ table.getD (i - 1) 0 ∧ table.getD (i - 1) 0 ≤ m := by
  have hentry : i - 1 < table.length := by omega
  rw [List.getD_eq_getElem _ 0 hentry]
  exact hrange _ (List.getElem_mem hentry)

/-- Settles O38: both buffers have the table's positions of `v` at 1..n and a zero tail. -/
theorem permuteBufferRefinesPermute : Obligations.PermuteBufferRefinesPermute := by
  intro m n table v hlen hrange
  obtain ⟨-, hinput, -⟩ := bufferBitsAndZeroTail m v
  obtain ⟨-, hpermuted, htail⟩ := bufferBitsAndZeroTail n (permute table n v)
  refine ext_getBit (by simp) fun i h1 hi => ?_
  rw [permuteBuffer_length] at hi
  rw [getBit_permuteBuffer _ hlen h1 hi]
  by_cases hn : i ≤ n
  · obtain ⟨hp1, hpm⟩ := getD_mem_range hrange h1 (hlen ▸ hn)
    rw [hpermuted i h1 hn, bitAt_permute table v hlen h1 hn, hinput _ hp1 hpm, decide_eq_true hn, Bool.true_and]
  · rw [htail i (by omega) hi, decide_eq_false hn, Bool.false_and]

/-! ## The tables -/

/-- Settles O39: a finite fact about the seven tables as the spec writes them out. -/
theorem permutationTablesAreInRange : Obligations.PermutationTablesAreInRange := by
  unfold Obligations.PermutationTablesAreInRange
  decide

/-- `T[S[i]] = i` for every i in 1..n, as R69 says it of IP and IP^-1; entry i of a table is at index i - 1. -/
abbrev TableUndoes (n : Nat) (T S : List Nat) : Prop :=
  ∀ k < n, T.getD (S.getD k 0 - 1) 0 = k + 1

theorem tableIPInv_undoes_tableIP : TableUndoes 64 tableIPInv tableIP := by decide

theorem tableIP_undoes_tableIPInv : TableUndoes 64 tableIP tableIPInv := by decide

/-- Permuting by T and then by S gives a value back when T undoes S: position i of the result is position S[i] of the
first result, which is position T[S[i]]. -/
theorem permute_permute_of_tableUndoes {n : Nat} {S T : List Nat} (hS : S.length = n) (hT : T.length = n)
    (hrange : ∀ p ∈ S, 1 ≤ p ∧ p ≤ n) (h : TableUndoes n T S) (x : BitVec n) : permute S n (permute T n x) = x := by
  refine ext_bitAt fun i h1 hn => ?_
  obtain ⟨hp1, hpn⟩ := getD_mem_range hrange h1 (hS ▸ hn)
  calc bitAt (permute S n (permute T n x)) i
      = bitAt (permute T n x) (S.getD (i - 1) 0) := bitAt_permute S _ hS h1 hn
    _ = bitAt x (T.getD (S.getD (i - 1) 0 - 1) 0) := bitAt_permute T x hT hp1 hpn
    _ = bitAt x i := by rw [h (i - 1) (by omega), Nat.sub_add_cancel h1]

/-- Settles O40: the tables undo each other, so permuting by one and then the other gives a value back. -/
theorem initialAndFinalPermutationsAreInverse : Obligations.InitialAndFinalPermutationsAreInverse := by
  obtain ⟨hlenIP, hrangeIP⟩ := permutationTablesAreInRange (tableIP, 64, 64) (by simp)
  obtain ⟨hlenInv, hrangeInv⟩ := permutationTablesAreInRange (tableIPInv, 64, 64) (by simp)
  refine ⟨fun i h1 h64 => ?_, by decide, by decide, fun x => ⟨?_, ?_⟩⟩
  · rw [tableIPInv_undoes_tableIP (i - 1) (by omega), Nat.sub_add_cancel h1]
  · exact permute_permute_of_tableUndoes hlenInv hlenIP hrangeInv tableIP_undoes_tableIPInv x
  · exact permute_permute_of_tableUndoes hlenIP hlenInv hrangeIP tableIPInv_undoes_tableIP x

end Sys2Proof.Machine
end

section
/-!
SUPPORT. The key schedule (41_key_schedule): one bit of a rotated half, rotations that add up, the byte-buffer rotation,
the subkey of a round, and what a schedule depends on.
-/

namespace Sys2Proof.Machine

/-! ## rotl28 -/

/-- Position j of a rotated half is the position `k` further on, wrapping after 28 (R74). -/
theorem bitAt_rotl28 (k : Nat) : ∀ (v : KeyHalf) {j : Nat}, 1 ≤ j → j ≤ 28 →
    bitAt (rotl28 v k) j = bitAt v ((j - 1 + k) % 28 + 1) := by
  induction k with
  | zero =>
    intro v j h1 h28
    rw [rotl28, show (j - 1 + 0) % 28 + 1 = j by omega]
  | succ k ih =>
    intro v j h1 h28
    rw [rotl28, ih _ h1 h28, bitAt_rotl28One v (by omega) (by omega)]
    split
    · next hlast => rw [show (j - 1 + (k + 1)) % 28 + 1 = 1 by omega]
    · next hlast => rw [show (j - 1 + (k + 1)) % 28 + 1 = (j - 1 + k) % 28 + 1 + 1 by omega]

/-- Single rotations, so their counts add up (R74). -/
theorem rotl28_rotl28 (a : Nat) : ∀ (v : KeyHalf) (b : Nat), rotl28 (rotl28 v a) b = rotl28 v (a + b) := by
  induction a with
  | zero => intro v b; rw [rotl28, Nat.zero_add]
  | succ a ih => intro v b; rw [rotl28, ih, Nat.add_right_comm, rotl28]

/-- Only the count modulo 28 matters (R75). -/
theorem rotl28_mod (v : KeyHalf) (k : Nat) : rotl28 v (k % 28) = rotl28 v k :=
  ext_bitAt fun j h1 h28 => by rw [bitAt_rotl28 _ _ h1 h28, bitAt_rotl28 _ _ h1 h28, Nat.add_mod_mod]

/-- R75: the shift left brings the positions up to 28 - k, the shift right those that wrap. -/
theorem rotl28_eq_shifts (v : KeyHalf) {k : Nat} (hk : k ≤ 28) : rotl28 v k = (v <<< k) ||| (v >>> (28 - k)) := by
  refine ext_bitAt fun j h1 h28 => ?_
  rw [bitAt_rotl28 k v h1 h28, bitAt, bitAt, BitVec.getLsbD_or, BitVec.getLsbD_shiftLeft, BitVec.getLsbD_ushiftRight]
  by_cases hwrap : j + k ≤ 28
  · rw [BitVec.getLsbD_of_ge v (28 - k + (28 - j)) (by omega)]
    simp [show 28 - j < 28 by omega, show ¬ 28 - j < k by omega,
      show 28 - ((j - 1 + k) % 28 + 1) = 28 - j - k by omega]
  · simp [show 28 - j < k by omega, show 28 - ((j - 1 + k) % 28 + 1) = 28 - k + (28 - j) by omega]

/-- Settles O41: the shifts bit by bit, and counts that add up modulo 28. -/
theorem rotationClosedForm : Obligations.RotationClosedForm :=
  ⟨fun v _ hk => rotl28_eq_shifts v hk, fun v a b => by rw [rotl28_rotl28, rotl28_mod]⟩

/-! ## The shift schedule -/

/-- Rotating by each shift in turn is rotating by their sum. -/
theorem foldl_rotl28 (shifts : List Nat) : ∀ v : KeyHalf, shifts.foldl rotl28 v = rotl28 v shifts.sum := by
  induction shifts with
  | nil => exact fun _ => rfl
  | cons shift rest ih => intro v; rw [List.foldl_cons, ih, rotl28_rotl28, List.sum_cons]

theorem shiftSchedule_sum : shiftSchedule.sum = 28 := rfl

/-- CUM[r] (R76) is the sum of the first r shifts. -/
theorem shiftSchedule_take_sum {r : Nat} (h1 : 1 ≤ r) (h16 : r ≤ 16) : (shiftSchedule.take r).sum =
    [1, 2, 4, 6, 8, 10, 12, 14, 15, 17, 19, 21, 23, 25, 27, 28].getD (r - 1) 0 := by
  interval_cases r <;> rfl

/-- Settles O42: all sixteen rotations are one by 28, which is one by 0. -/
theorem sixteenRotationsReturn : Obligations.SixteenRotationsReturn := by
  refine ⟨by decide, by decide, shiftSchedule_sum, fun r h1 h16 => shiftSchedule_take_sum h1 h16, fun v => ?_⟩
  calc shiftSchedule.foldl rotl28 v
      = rotl28 v 28 := by rw [foldl_rotl28, shiftSchedule_sum]
    _ = rotl28 v 0 := (rotl28_mod v 28).symm
    _ = v := rfl

/-! ## The rotation of the byte buffer -/

/-- The inner loop of R74, cut after `n` positions. -/
def shiftPositions (n : Nat) (buf : List Byte) : List Byte :=
  (List.range n).foldl (fun acc k => putBit acc (k + 1) (getBit acc (k + 2))) buf

theorem shiftPositions_succ (n : Nat) (buf : List Byte) : shiftPositions (n + 1) buf =
    putBit (shiftPositions n buf) (n + 1) (getBit (shiftPositions n buf) (n + 2)) := by
  rw [shiftPositions, List.range_succ, List.foldl_concat, shiftPositions]

theorem rotl28OneBuffer_eq (buf : List Byte) :
    rotl28OneBuffer buf = putBit (shiftPositions 27 buf) 28 (getBit buf 1) := rfl

@[simp] theorem shiftPositions_length (n : Nat) (buf : List Byte) : (shiftPositions n buf).length = buf.length := by
  induction n with
  | zero => rfl
  | succ n ih => rw [shiftPositions_succ, putBit_length, ih]

@[simp] theorem rotl28OneBuffer_length (buf : List Byte) : (rotl28OneBuffer buf).length = buf.length := by
  rw [rotl28OneBuffer_eq, putBit_length, shiftPositions_length]

/-- The loop goes up, so each position it reads still holds what it held at the start. -/
theorem getBit_shiftPositions {buf : List Byte} {n : Nat} (hn : n ≤ 8 * buf.length) {j : Nat} (h1 : 1 ≤ j) :
    getBit (shiftPositions n buf) j = if j ≤ n then getBit buf (j + 1) else getBit buf j := by
  induction n generalizing j with
  | zero => rw [if_neg (by omega)]; rfl
  | succ n ih =>
    rw [shiftPositions_succ, getBit_putBit _ (by omega) (by rwa [shiftPositions_length]) h1, ih (by omega) (by omega),
      ih (by omega) h1, if_neg (show ¬ n + 2 ≤ n by omega)]
    by_cases hj : j = n + 1
    · subst hj
      rw [if_pos rfl, if_pos le_rfl]
    · simp only [if_neg hj, show j ≤ n + 1 ↔ j ≤ n by omega]

/-- One pass moves positions 2..28 down, puts position 1 at 28 and leaves the tail (R74). -/
theorem getBit_rotl28OneBuffer {buf : List Byte} (hlen : buf.length = 4) {j : Nat} (h1 : 1 ≤ j) :
    getBit (rotl28OneBuffer buf) j =
      if j = 28 then getBit buf 1 else if j ≤ 27 then getBit buf (j + 1) else getBit buf j := by
  rw [rotl28OneBuffer_eq, getBit_putBit _ (by omega) (by rw [shiftPositions_length]; omega) h1,
    getBit_shiftPositions (by omega) h1]

/-- One pass on the buffer is one rotation of the value, and the tail stays zero (R72, R74). -/
theorem rotl28OneBuffer_toBuffer (v : KeyHalf) : rotl28OneBuffer (toBuffer v) = toBuffer (rotl28One v) := by
  obtain ⟨hlen, hbits, htail⟩ := bufferBitsAndZeroTail 28 v
  obtain ⟨-, hrotated, hrotatedTail⟩ := bufferBitsAndZeroTail 28 (rotl28One v)
  refine ext_getBit (by simp) fun j h1 hj => ?_
  rw [rotl28OneBuffer_length, hlen] at hj
  rw [getBit_rotl28OneBuffer hlen h1]
  by_cases hvalue : j ≤ 28
  · rw [hrotated j h1 hvalue, bitAt_rotl28One v h1 hvalue, hbits 1 (by omega) (by omega)]
    split
    · rfl
    · rw [if_pos (by omega), hbits (j + 1) (by omega) (by omega)]
  · rw [if_neg (by omega), if_neg (by omega), htail j (by omega) hj, hrotatedTail j (by omega) hj]

/-- Settles O43: pass by pass. -/
theorem rotationBufferRefinesRotation : Obligations.RotationBufferRefinesRotation := by
  intro v k
  induction k generalizing v with
  | zero => rfl
  | succ k ih =>
    calc rotl28Buffer (toBuffer v) (k + 1)
        = rotl28Buffer (rotl28OneBuffer (toBuffer v)) k := Function.iterate_succ_apply ..
      _ = rotl28Buffer (toBuffer (rotl28One v)) k := by rw [rotl28OneBuffer_toBuffer]
      _ = toBuffer (rotl28 v (k + 1)) := ih _

/-! ## The subkeys -/

/-- Subkey i of the loop is PC-2 of the halves rotated by the shifts up to its own. -/
theorem subkeysFrom_getD (shifts : List Nat) : ∀ (c d : KeyHalf) {i : Nat}, i < shifts.length →
    (subkeysFrom c d shifts).getD i 0 =
      compressKey (rotl28 c (shifts.take (i + 1)).sum) (rotl28 d (shifts.take (i + 1)).sum) := by
  induction shifts with
  | nil => intro c d i hi; exact absurd hi (by simp)
  | cons shift rest ih =>
    intro c d i hi
    cases i with
    | zero => simp [subkeysFrom]
    | succ i =>
      rw [subkeysFrom, List.getD_cons_succ, ih _ _ (by simpa using hi), rotl28_rotl28, rotl28_rotl28,
        List.take_succ_cons, List.sum_cons]

/-- K[r] from the halves rotated by all shifts up to round r's (R78). -/
theorem subkey_keySchedule (key : Block) {r : Nat} (h1 : 1 ≤ r) (h16 : r ≤ 16) :
    subkey (keySchedule key) r = compressKey (rotl28 (keyHalfC key) (shiftSchedule.take r).sum)
      (rotl28 (keyHalfD key) (shiftSchedule.take r).sum) := by
  have hround : r - 1 < shiftSchedule.length := show r - 1 < 16 by omega
  calc subkey (keySchedule key) r
      = (subkeysFrom (keyHalfC key) (keyHalfD key) shiftSchedule).getD (r - 1) 0 := rfl
    _ = _ := by rw [subkeysFrom_getD _ _ _ hround, Nat.sub_add_cancel h1]

/-- The shifts up to round r's are those of the round before and round r's own. -/
theorem shiftSchedule_take_sum_step {r : Nat} (h1 : 1 ≤ r) (h16 : r ≤ 16) :
    (shiftSchedule.take r).sum = (shiftSchedule.take (r - 1)).sum + shiftSchedule.getD (r - 1) 0 := by
  have hround : r - 1 < shiftSchedule.length := show r - 1 < 16 by omega
  rw [List.getD_eq_getElem _ _ hround, ← List.sum_take_succ, Nat.sub_add_cancel h1]

/-- Settles O44: a half after round r is the PC-1 half rotated by the shifts up to round r's. -/
theorem keyScheduleRoundByRound : Obligations.KeyScheduleRoundByRound := by
  refine fun key => ⟨fun r => rotl28 (keyHalfC key) (shiftSchedule.take r).sum,
    fun r => rotl28 (keyHalfD key) (shiftSchedule.take r).sum, rfl, rfl, fun r h1 h16 => ⟨?_, ?_, ?_⟩⟩
  · rw [rotl28_rotl28, ← shiftSchedule_take_sum_step h1 h16]
  · rw [rotl28_rotl28, ← shiftSchedule_take_sum_step h1 h16]
  · exact subkey_keySchedule key h1 h16

/-- Settles O45: the shifts up to round r's add up to CUM[r]. -/
theorem keyScheduleClosedForm : Obligations.KeyScheduleClosedForm := by
  intro key r h1 h16
  rw [subkey_keySchedule key h1 h16, shiftSchedule_take_sum h1 h16]
  rfl

/-! ## The parity bits -/

/-- A permute depends only on the positions its table reads. -/
theorem permute_congr {m : Nat} {table : List Nat} (n : Nat) {v w : BitVec m}
    (h : ∀ p ∈ table, bitAt v p = bitAt w p) : permute table n v = permute table n w := by
  rw [permute, permute, List.map_congr_left h]

theorem keySchedule_toArray (key : Block) :
    (keySchedule key).toArray = (subkeysFrom (keyHalfC key) (keyHalfD key) shiftSchedule).toArray := rfl

/-- A key schedule depends only on the two PC-1 halves. -/
theorem keySchedule_congr {key key' : Block} (hC : keyHalfC key = keyHalfC key') (hD : keyHalfD key = keyHalfD key') :
    keySchedule key = keySchedule key' :=
  Vector.toArray_inj.mp (by rw [keySchedule_toArray, keySchedule_toArray, hC, hD])

theorem parityMask_bitAt : ∀ p ≤ 64, p % 8 ≠ 0 → bitAt (0xFEFEFEFEFEFEFEFE : Block) p = true := by decide

/-- Keys that agree under the mask agree at every position that is no parity position (R71). -/
theorem bitAt_eq_of_masked_eq {key key' : Block} (h : key &&& 0xFEFEFEFEFEFEFEFE = key' &&& 0xFEFEFEFEFEFEFEFE)
    {p : Nat} (h64 : p ≤ 64) (hp : p % 8 ≠ 0) : bitAt key p = bitAt key' p := by
  simpa only [bitAt_and, parityMask_bitAt p h64 hp, Bool.and_true] using congrArg (bitAt · p) h

/-- PC-1 reads positions of the key, and no parity position (R70, R71). -/
theorem tablePC1_reads_no_parity : ∀ p ∈ tablePC1C ++ tablePC1D, p ≤ 64 ∧ p % 8 ≠ 0 := by decide

/-- Settles O46: keys that agree but for the parity bits have the same PC-1 halves. -/
theorem parityBitsDoNotMatter : Obligations.ParityBitsDoNotMatter := by
  refine ⟨fun p hp => (tablePC1_reads_no_parity p hp).2, fun key key' h => ?_⟩
  have hread : ∀ p ∈ tablePC1C ++ tablePC1D, bitAt key p = bitAt key' p := fun p hp => by
    obtain ⟨h64, hparity⟩ := tablePC1_reads_no_parity p hp
    exact bitAt_eq_of_masked_eq h h64 hparity
  have hschedule : keySchedule key = keySchedule key' :=
    keySchedule_congr (permute_congr 28 fun p hp => hread p (List.mem_append_left _ hp))
      (permute_congr 28 fun p hp => hread p (List.mem_append_right _ hp))
  exact ⟨hschedule, fun x dir => by rw [hschedule]⟩

end Sys2Proof.Machine
end

section
/-!
SUPPORT. The substitution stage and the round function (42_substitution_round): the rows of the S-boxes, the row and the
column of a six-bit group as numbers, and what the round function depends on.
-/

namespace Sys2Proof.Machine

/-! ## The S-boxes -/

/-- Settles O47: a finite fact about the eight boxes as the spec writes them out. -/
theorem sBoxRowsArePermutations : Obligations.SBoxRowsArePermutations := by
  unfold Obligations.SBoxRowsArePermutations
  decide

theorem getD_mem_of_lt {α : Type} {l : List α} {i : Nat} (hi : i < l.length) (d : α) : l.getD i d ∈ l :=
  List.getD_eq_getElem l d hi ▸ List.getElem_mem hi

/-- An entry of a box is a four-bit value, as an entry of a permutation of 0..15 (R81, R82). -/
theorem sBoxEntry_lt {idx row col : Nat} (hidx : idx < 8) (hrow : row < 4) (hcol : col < 16) :
    sBoxEntry idx row col < 16 := by
  obtain ⟨hboxes, hrows⟩ := sBoxRowsArePermutations
  obtain ⟨hfour, hperm⟩ := hrows _ (getD_mem_of_lt (hboxes ▸ hidx) [])
  have hrowPerm := hperm _ (getD_mem_of_lt (hfour ▸ hrow) [])
  have hsixteen := hrowPerm.length_eq.trans List.length_range
  exact List.mem_range.mp (hrowPerm.mem_iff.mp (getD_mem_of_lt (hsixteen ▸ hcol) 0))

/-! ## A six-bit group as a number -/

/-- The group of box idx, positions 6·idx+1 to 6·idx+6, as a number, the first position most significant (R80). -/
def sBoxGroup (x : BitVec 48) (idx : Nat) : Nat := (x.toNat >>> (42 - 6 * idx)) % 64

theorem sBoxGroup_lt (x : BitVec 48) (idx : Nat) : sBoxGroup x idx < 64 := Nat.mod_lt _ (by decide)

/-- Position k of a group has the weight `2 ^ (6 - k)` in its number (R8, R80). -/
theorem bitAt_toNat_eq_sBoxGroup (x : BitVec 48) {idx k : Nat} (hidx : idx < 8) (h1 : 1 ≤ k) (h6 : k ≤ 6) :
    (bitAt x (idx * 6 + k)).toNat = sBoxGroup x idx / 2 ^ (6 - k) % 2 := by
  have hbit : bitAt x (idx * 6 + k) = (sBoxGroup x idx).testBit (6 - k) := by
    rw [sBoxGroup, show 64 = 2 ^ 6 from rfl, Nat.testBit_mod_two_pow, Nat.testBit_shiftRight, BitVec.testBit_toNat,
      decide_eq_true (show 6 - k < 6 by omega), Bool.true_and, bitAt,
      show 48 - (idx * 6 + k) = 42 - 6 * idx + (6 - k) by omega]
  rw [hbit, Nat.toNat_testBit]

/-- The outer two bits of the group (R80). -/
theorem sBoxRow_eq (x : BitVec 48) {idx : Nat} (hidx : idx < 8) :
    sBoxRow x idx = 2 * (sBoxGroup x idx / 32) + sBoxGroup x idx % 2 := by
  have hg := sBoxGroup_lt x idx
  simp only [sBoxRow, bitAt_toNat_eq_sBoxGroup x hidx, Nat.reduceLeDiff, Nat.reduceSub, Nat.reducePow]
  omega

/-- The middle four bits of the group (R80). -/
theorem sBoxCol_eq (x : BitVec 48) {idx : Nat} (hidx : idx < 8) : sBoxCol x idx = sBoxGroup x idx / 2 % 16 := by
  simp only [sBoxCol, bitAt_toNat_eq_sBoxGroup x hidx, Nat.reduceLeDiff, Nat.reduceSub, Nat.reducePow]
  omega

/-- Settles O48: the row and the column are those of the group's number, and the entry there fits in four bits. -/
theorem sBoxReadsItsGroup : Obligations.SBoxReadsItsGroup := by
  intro x idx g hidx hg
  have hgroup : g = sBoxGroup x idx := hg
  have hlt : g < 64 := hgroup ▸ sBoxGroup_lt x idx
  have hentry : sBoxEntry idx (2 * (g / 32) + g % 2) (g / 2 % 16) < 16 := sBoxEntry_lt hidx (by omega) (by omega)
  rw [sBox, sBoxRow_eq x hidx, sBoxCol_eq x hidx, ← hgroup, BitVec.toNat_ofNat, Nat.mod_eq_of_lt hentry]

/-! ## The round function -/

/-- A permute is linear: each of its positions is one position of its input. -/
theorem permute_xor {m n : Nat} {table : List Nat} (hlen : table.length = n) (v w : BitVec m) :
    permute table n (v ^^^ w) = permute table n v ^^^ permute table n w :=
  ext_bitAt fun i h1 hn => by
    rw [bitAt_xor, bitAt_permute table _ hlen h1 hn, bitAt_permute table _ hlen h1 hn, bitAt_permute table _ hlen h1 hn,
      bitAt_xor]

theorem expand_xor (r r' : Half) : expand (r ^^^ r') = expand r ^^^ expand r' := permute_xor rfl r r'

/-- The round function depends on R and K only through E(R) xor K (R86). -/
theorem roundF_congr {r r' : Half} {k k' : Subkey} (h : expand r ^^^ k = expand r' ^^^ k') : roundF r k = roundF r' k' :=
  congrArg (fun x => permute tableP 32 (substitute x)) h

/-- E takes all ones to all ones, which the complement of K cancels (R86). -/
theorem roundF_complement (r : Half) (k : Subkey) : roundF (r ^^^ 0xFFFFFFFF) (k ^^^ 0xFFFFFFFFFFFF) = roundF r k := by
  have hones : expand 0xFFFFFFFF = 0xFFFFFFFFFFFF := by decide
  refine roundF_congr ?_
  calc expand (r ^^^ 0xFFFFFFFF) ^^^ (k ^^^ 0xFFFFFFFFFFFF)
      = (expand r ^^^ 0xFFFFFFFFFFFF) ^^^ (k ^^^ 0xFFFFFFFFFFFF) := by rw [expand_xor, hones]
    _ = (expand r ^^^ k) ^^^ (0xFFFFFFFFFFFF ^^^ 0xFFFFFFFFFFFF) := by ac_rfl
    _ = expand r ^^^ k := by rw [BitVec.xor_self, BitVec.xor_zero]

/-- Position i of the round function is one bit of the box that P takes it from (R84, R85). -/
theorem bitAt_roundF (r : Half) (k : Subkey) {i : Nat} (h1 : 1 ≤ i) (h32 : i ≤ 32) :
    bitAt (roundF r k) i =
      (sBox (expand r ^^^ k) ((tableP.getD (i - 1) 0 - 1) / 4)).getLsbD (3 - (tableP.getD (i - 1) 0 - 1) % 4) := by
  obtain ⟨hlen, hrange⟩ := permutationTablesAreInRange (tableP, 32, 32) (by simp)
  obtain ⟨hp1, hp32⟩ := getD_mem_range hrange h1 (hlen.symm ▸ h32)
  rw [roundF, bitAt_permute tableP _ hlen h1 h32, bitAt_substitute _ hp1 hp32]

/-- Settles O49: P of the eight S-box results bit by bit, and a round function of the mix alone. -/
theorem roundFunctionDependsOnTheMix : Obligations.RoundFunctionDependsOnTheMix := by
  refine ⟨?_, by decide +kernel, fun _ _ _ _ h => roundF_congr h, roundF_complement⟩
  rintro R K X rfl
  refine ⟨rfl, ?_⟩
  rintro i p h1 h32 rfl
  exact bitAt_roundF R K h1 h32

end Sys2Proof.Machine
end

section
/-!
SUPPORT. The 16-round block cipher (43_block_cipher): the rounds one by one, the rounds undone by running their subkeys
backwards, what a complement does to each stage, and the rule of the commands DES.ENC and DES.DEC.
-/

namespace Sys2Proof.Machine

/-! ## The rounds one by one -/

@[simp] theorem roundKeys_length (K : Schedule) (dir : Direction) : (roundKeys K dir).length = 16 := by
  cases dir <;> simp [roundKeys]

/-- Round r uses K[r] to encrypt and K[17 - r] to decrypt (R91). -/
theorem roundKeys_getD (K : Schedule) (dir : Direction) {r : Nat} (h1 : 1 ≤ r) (h16 : r ≤ 16) :
    (roundKeys K dir).getD (r - 1) 0 = if dir = .encrypt then subkey K r else subkey K (17 - r) := by
  cases dir with
  | encrypt => rfl
  | decrypt =>
    have hlen : K.toList.length = 16 := Vector.length_toList
    rw [roundKeys, List.getD_reverse _ (by omega), hlen, show 16 - 1 - (r - 1) = 17 - r - 1 by omega]
    rfl

/-- The rounds up to round r are those before it and then its own. -/
theorem feistelRounds_take {ks : List Subkey} {r : Nat} (h1 : 1 ≤ r) (hr : r ≤ ks.length) (lr : Half × Half) :
    feistelRounds (ks.take r) lr = feistelRound (feistelRounds (ks.take (r - 1)) lr) (ks.getD (r - 1) 0) := by
  have hround : r - 1 < ks.length := by omega
  have htake : ks.take r = ks.take (r - 1) ++ [ks.getD (r - 1) 0] := by
    rw [List.getD_eq_getElem _ _ hround, List.take_append_getElem hround, Nat.sub_add_cancel h1]
  rw [htake, feistelRounds, List.foldl_concat, feistelRounds]

/-- The halves L_r and R_r of desBlock(x, K, dir) (R88, R89). -/
def halvesAfter (x : Block) (K : Schedule) (dir : Direction) (r : Nat) : Half × Half :=
  feistelRounds ((roundKeys K dir).take r) (splitBlock x)

theorem halvesAfter_step (x : Block) (K : Schedule) (dir : Direction) {r : Nat} (h1 : 1 ≤ r) (h16 : r ≤ 16) :
    halvesAfter x K dir r = feistelRound (halvesAfter x K dir (r - 1))
      (if dir = .encrypt then subkey K r else subkey K (17 - r)) := by
  rw [halvesAfter, feistelRounds_take h1 (by rwa [roundKeys_length]), roundKeys_getD K dir h1 h16, halvesAfter]

theorem desBlock_eq_combineHalves (x : Block) (K : Schedule) (dir : Direction) :
    desBlock x K dir = combineHalves (halvesAfter x K dir 16) := by
  rw [halvesAfter, List.take_of_length_le (roundKeys_length K dir).le, desBlock]

/-- Settles O50: the halves after round r are those the first r subkeys of the direction lead to. -/
theorem desBlockRoundByRound : Obligations.DesBlockRoundByRound := by
  intro x K dir
  refine ⟨fun r => (halvesAfter x K dir r).1, fun r => (halvesAfter x K dir r).2, rfl, rfl, fun r h1 h16 => ?_,
    desBlock_eq_combineHalves x K dir⟩
  have hstep := halvesAfter_step x K dir h1 h16
  exact ⟨congrArg Prod.fst hstep, congrArg Prod.snd hstep⟩

/-! ## Inversion -/

/-- A round undoes itself up to the order of the halves: it mixes the same value into the same half again (R92). -/
theorem feistelRound_swap_feistelRound (lr : Half × Half) (k : Subkey) :
    feistelRound (feistelRound lr k).swap k = lr.swap :=
  Prod.ext rfl (by simp [feistelRound])

/-- Rounds are undone by the same subkeys in reverse, on the swapped halves (R92). -/
theorem feistelRounds_reverse_swap (ks : List Subkey) (lr : Half × Half) :
    feistelRounds ks.reverse (feistelRounds ks lr).swap = lr.swap := by
  induction ks generalizing lr with
  | nil => rfl
  | cons k ks ih =>
    calc feistelRounds (k :: ks).reverse (feistelRounds (k :: ks) lr).swap
        = feistelRound (feistelRounds ks.reverse (feistelRounds ks (feistelRound lr k)).swap) k := by
          rw [List.reverse_cons, feistelRounds, List.foldl_concat]
          rfl
      _ = feistelRound (feistelRound lr k).swap k := by rw [ih]
      _ = lr.swap := feistelRound_swap_feistelRound lr k

theorem initialPermutation_finalPermutation (x : Block) : initialPermutation (finalPermutation x) = x := by
  obtain ⟨-, -, -, hinverse⟩ := initialAndFinalPermutationsAreInverse
  exact (hinverse x).2

theorem finalPermutation_initialPermutation (x : Block) : finalPermutation (initialPermutation x) = x := by
  obtain ⟨-, -, -, hinverse⟩ := initialAndFinalPermutationsAreInverse
  exact (hinverse x).1

/-- The last swap of R90 is what the next block transformation starts from. -/
theorem splitBlock_combineHalves (lr : Half × Half) : splitBlock (combineHalves lr) = lr.swap := by
  rw [splitBlock, combineHalves, initialPermutation_finalPermutation, extract_append_left _ _ _ _ le_rfl,
    extract_append_right _ _ _ _ le_rfl, extract_all, extract_all]
  rfl

theorem combineHalves_swap_splitBlock (x : Block) : combineHalves (splitBlock x).swap = x := by
  have hjoin := append_extract (initialPermutation x) 0 32 32
  calc combineHalves (splitBlock x).swap
      = finalPermutation ((splitBlock x).1 ++ (splitBlock x).2) := rfl
    _ = finalPermutation (initialPermutation x) := congrArg finalPermutation (hjoin.trans (extract_all _))
    _ = x := finalPermutation_initialPermutation x

/-- A direction is undone by one that uses its subkeys in reverse. -/
theorem desBlock_desBlock_of_reverse {K : Schedule} {dir dir' : Direction}
    (h : roundKeys K dir' = (roundKeys K dir).reverse) (x : Block) : desBlock (desBlock x K dir) K dir' = x := by
  rw [desBlock, desBlock, h, splitBlock_combineHalves, feistelRounds_reverse_swap, combineHalves_swap_splitBlock]

/-- Settles O51: each direction uses the subkeys of the other in reverse. -/
theorem desBlockInverts : Obligations.DesBlockInverts :=
  fun x _ => ⟨desBlock_desBlock_of_reverse rfl x, desBlock_desBlock_of_reverse (List.reverse_reverse _).symm x⟩

/-! ## Complementation -/

/-- A permute commutes with the complement: each of its positions is one position of its input. -/
theorem permute_not {m n : Nat} {table : List Nat} (hlen : table.length = n) (hrange : ∀ p ∈ table, 1 ≤ p ∧ p ≤ m)
    (v : BitVec m) : permute table n (~~~v) = ~~~(permute table n v) := by
  refine ext_bitAt fun i h1 hn => ?_
  obtain ⟨hp1, hpm⟩ := getD_mem_range hrange h1 (hlen ▸ hn)
  rw [bitAt_not _ h1 hn, bitAt_permute table _ hlen h1 hn, bitAt_permute table _ hlen h1 hn, bitAt_not _ hp1 hpm]

theorem extract_not {n : Nat} (v : BitVec n) {k l : Nat} (h : k + l ≤ n) :
    (~~~v).extractLsb' k l = ~~~(v.extractLsb' k l) := by
  refine BitVec.eq_of_getLsbD_eq fun j hj => ?_
  simp [hj, show k + j < n by omega]

theorem rotl28_not (v : KeyHalf) (k : Nat) : rotl28 (~~~v) k = ~~~(rotl28 v k) := by
  refine ext_bitAt fun j h1 h28 => ?_
  rw [bitAt_not _ h1 h28, bitAt_rotl28 k _ h1 h28, bitAt_rotl28 k _ h1 h28, bitAt_not _ (by omega) (by omega)]

theorem keyHalfC_not (key : Block) : keyHalfC (~~~key) = ~~~(keyHalfC key) := permute_not rfl (by decide) key

theorem keyHalfD_not (key : Block) : keyHalfD (~~~key) = ~~~(keyHalfD key) := permute_not rfl (by decide) key

theorem compressKey_not (c d : KeyHalf) : compressKey (~~~c) (~~~d) = ~~~(compressKey c d) := by
  rw [compressKey, ← BitVec.not_append]
  exact permute_not rfl (by decide) _

theorem subkeysFrom_not (shifts : List Nat) (c d : KeyHalf) :
    subkeysFrom (~~~c) (~~~d) shifts = (subkeysFrom c d shifts).map (~~~·) := by
  induction shifts generalizing c d with
  | nil => rfl
  | cons shift rest ih => rw [subkeysFrom, rotl28_not, rotl28_not, compressKey_not, ih, subkeysFrom, List.map_cons]

/-- Every subkey of the complemented key is the complement of the key's (R94). -/
theorem keySchedule_not_toList (key : Block) :
    (keySchedule (~~~key)).toList = (keySchedule key).toList.map (~~~·) := by
  calc (keySchedule (~~~key)).toList
      = subkeysFrom (keyHalfC (~~~key)) (keyHalfD (~~~key)) shiftSchedule := rfl
    _ = (keySchedule key).toList.map (~~~·) := by rw [keyHalfC_not, keyHalfD_not, subkeysFrom_not]; rfl

theorem roundKeys_keySchedule_not (key : Block) (dir : Direction) :
    roundKeys (keySchedule (~~~key)) dir = (roundKeys (keySchedule key) dir).map (~~~·) := by
  cases dir with
  | encrypt => exact keySchedule_not_toList key
  | decrypt => rw [roundKeys, keySchedule_not_toList, roundKeys, List.map_reverse]

/-- Both halves complemented. -/
def complementHalves (lr : Half × Half) : Half × Half := (~~~lr.1, ~~~lr.2)

theorem splitBlock_not (x : Block) : splitBlock (~~~x) = complementHalves (splitBlock x) := by
  have hIP : initialPermutation (~~~x) = ~~~(initialPermutation x) := permute_not rfl (by decide) x
  rw [splitBlock, hIP, extract_not _ (by decide), extract_not _ (by decide)]
  rfl

theorem combineHalves_complementHalves (lr : Half × Half) :
    combineHalves (complementHalves lr) = ~~~(combineHalves lr) := by
  rw [combineHalves, complementHalves, ← BitVec.not_append]
  exact permute_not rfl (by decide) _

/-- A round of complements is the complement of the round: f takes the same value, so only the half it is mixed into is
complemented (R86, R94). -/
theorem feistelRound_complementHalves (lr : Half × Half) (k : Subkey) :
    feistelRound (complementHalves lr) (~~~k) = complementHalves (feistelRound lr k) := by
  have hf : roundF (~~~lr.2) (~~~k) = roundF lr.2 k := by
    rw [← BitVec.xor_allOnes, ← BitVec.xor_allOnes]
    exact roundF_complement lr.2 k
  rw [feistelRound, complementHalves, hf, ← BitVec.not_xor_left]
  rfl

theorem feistelRounds_complementHalves (ks : List Subkey) (lr : Half × Half) :
    feistelRounds (ks.map (~~~·)) (complementHalves lr) = complementHalves (feistelRounds ks lr) := by
  rw [feistelRounds, List.foldl_map]
  exact List.foldl_hom complementHalves feistelRound_complementHalves

/-- Settles O52: every stage of the block transformation, the key schedule included, commutes with the complement. -/
theorem desBlockComplementation : Obligations.DesBlockComplementation := by
  intro x key dir
  rw [desBlock, roundKeys_keySchedule_not, splitBlock_not, feistelRounds_complementHalves,
    combineHalves_complementHalves, desBlock]

/-! ## DES.ENC and DES.DEC -/

/-- The command words whose OP is `op` (R53, R54). -/
def wordsOfOp (op : BitVec 4) : List Word := (commandWords.map Prod.fst).filter (opField · = op)

/-- Every other word of an OP is ILLEGAL_COMMAND (R54, R55). -/
theorem execute_of_notMem_wordsOfOp {op : BitVec 4} {w : Word} (hop : opField w = op) (hw : w ∉ wordsOfOp op)
    (s : State) : execute w s = .next (setErr .illegalCommand s) := by
  cases hd : decode w with
  | error r => exact execute_of_illegal hd s
  | ok i =>
    have hpair : (w, i) ∈ commandWords := (elevenWordsAreCommands w i).mp hd
    have hmem : w ∈ commandWords.map Prod.fst := List.mem_map_of_mem (f := Prod.fst) hpair
    exact absurd (List.mem_filter.mpr ⟨hmem, decide_eq_true hop⟩) hw

theorem wordsOfOp_desEnc : wordsOfOp 2 = [0x00000002, 0x00000012, 0x00000022] := by decide

theorem wordsOfOp_desDec : wordsOfOp 3 = [0x00000003, 0x00000013, 0x00000023] := by decide

/-- With KSV = 1 the two commands replace BLOCK and report OK (R95, R96). -/
theorem desCommand_of_valid (dir : Direction) {slot : BitVec 2} {s : State} {K : Schedule}
    (hK : slotSchedule slot s = some K) (hv : s.ksv = true) :
    desCommand dir slot s = .next (setErr .ok (setBlock (desBlock s.block K dir) s)) := by
  simp only [desCommand, hK]
  exact requireKeys_of_valid hv

/-- Settles O15: the words of its OP, and `desCommand` to encrypt without and with a key schedule. -/
theorem desEncFollowsItsRule : Obligations.DesEncFollowsItsRule := by
  refine ⟨⟨decode_word_desEnc_slot0, decode_word_desEnc_slot1, decode_word_desEnc_slot2⟩, fun s =>
    ⟨fun w hop h0 h1 h2 => execute_of_notMem_wordsOfOp hop (by rw [wordsOfOp_desEnc]; simpa using ⟨h0, h1, h2⟩) s,
      fun hv _ h3 => desCommand_of_invalid .encrypt h3 hv, fun hv => ⟨?_, ?_, ?_⟩⟩⟩
  · exact desCommand_of_valid .encrypt (slot := 0) rfl hv
  · exact desCommand_of_valid .encrypt (slot := 1) rfl hv
  · exact desCommand_of_valid .encrypt (slot := 2) rfl hv

/-- Settles O16: the words of its OP, and `desCommand` to decrypt without and with a key schedule. -/
theorem desDecFollowsItsRule : Obligations.DesDecFollowsItsRule := by
  refine ⟨⟨decode_word_desDec_slot0, decode_word_desDec_slot1, decode_word_desDec_slot2⟩, fun s =>
    ⟨fun w hop h0 h1 h2 => execute_of_notMem_wordsOfOp hop (by rw [wordsOfOp_desDec]; simpa using ⟨h0, h1, h2⟩) s,
      fun hv _ h3 => desCommand_of_invalid .decrypt h3 hv, fun hv => ⟨?_, ?_, ?_⟩⟩⟩
  · exact desCommand_of_valid .decrypt (slot := 0) rfl hv
  · exact desCommand_of_valid .decrypt (slot := 1) rfl hv
  · exact desCommand_of_valid .decrypt (slot := 2) rfl hv

end Sys2Proof.Machine
end

section
/-!
SUPPORT. Triple-DES (44_triple_des): the EDE block functions as inverses, padding and depadding, the blocks a buffer
command reads and writes, and the rules of the key command, the Triple-DES block commands and the buffer commands.
-/

namespace Sys2Proof.Machine

/-! ## The EDE block functions -/

theorem desBlock_decrypt_encrypt (x : Block) (K : Schedule) : desBlock (desBlock x K .encrypt) K .decrypt = x :=
  (desBlockInverts x K).1

theorem desBlock_encrypt_decrypt (x : Block) (K : Schedule) : desBlock (desBlock x K .decrypt) K .encrypt = x :=
  (desBlockInverts x K).2

/-- Settles O53: the three stages cancel from the inside out. -/
theorem tripleDesInverts : Obligations.TripleDesInverts := by
  refine fun x KA KB KC => ⟨?_, ?_⟩
  · rw [tdesD, tdesE, desBlock_decrypt_encrypt _ KC, desBlock_encrypt_decrypt _ KB, desBlock_decrypt_encrypt _ KA]
  · rw [tdesE, tdesD, desBlock_encrypt_decrypt _ KA, desBlock_decrypt_encrypt _ KB, desBlock_encrypt_decrypt _ KC]

/-- Settles O54: two neighbouring stages under one schedule cancel. -/
theorem tripleDesDegenerates : Obligations.TripleDesDegenerates := by
  refine ⟨fun x K => ⟨?_, ?_⟩, fun x K KC => ?_⟩
  · rw [tdesE, desBlock_decrypt_encrypt]
  · rw [tdesD, desBlock_encrypt_decrypt]
  · rw [tdesE, desBlock_decrypt_encrypt]

theorem decryptWith_encryptWith (k : TripleKey) (x : Block) : decryptWith k (encryptWith k x) = x :=
  (tripleDesInverts x _ _ _).1

/-! ## Padding -/

theorem padLength_eq_eight_iff (n : Nat) : padLength n = 8 ↔ n % 8 = 0 := by
  simp only [padLength]
  omega

/-- The pad length fits in the byte that states it (R104). -/
theorem padByte_toNat (n : Nat) : (BitVec.ofNat 8 (padLength n)).toNat = padLength n := by
  obtain ⟨-, h8, -⟩ := padLength_bounds n
  rw [BitVec.toNat_ofNat, Nat.mod_eq_of_lt (by omega)]

/-- The padded buffer is whole blocks (R104). -/
theorem padded_length_mod (src : List Byte) : (padded src).length % 8 = 0 := by
  obtain ⟨-, -, hmod⟩ := padLength_bounds src.length
  rw [padded_length, hmod]

theorem padded_take (src : List Byte) : (padded src).take src.length = src := List.take_left

theorem padded_drop (src : List Byte) :
    (padded src).drop src.length = List.replicate (padLength src.length) (BitVec.ofNat 8 (padLength src.length)) :=
  List.drop_left

/-- Settles O55: the padded buffer is the source and then the pad byte, as often as the pad length says. -/
theorem paddingFollowsItsRules : Obligations.PaddingFollowsItsRules := by
  refine ⟨fun n => ?_, fun src => ⟨padded_length src, padded_length_mod src, padded_take src, fun b hb => ?_⟩⟩
  · obtain ⟨h1, h8, -⟩ := padLength_bounds n
    exact ⟨rfl, h1, h8, padLength_eq_eight_iff n⟩
  · rw [padded_drop] at hb
    rw [List.eq_of_mem_replicate hb, padByte_toNat]

/-! ## Depadding -/

theorem statedPad_concat (front : List Byte) (last : Byte) : statedPad (front ++ [last]) = last.toNat := by
  simp [statedPad]

/-- Settles O56: the pad length read is the last byte, and the length cut is counted from the buffer's end. -/
theorem depaddingFollowsItsRule : Obligations.DepaddingFollowsItsRule := by
  refine fun front last => ⟨fun hout => ?_, fun h1 h8 => ?_⟩
  · rw [depadded_none, statedPad_concat]
    omega
  · rw [depadded_some, statedPad_concat, List.length_append, List.length_singleton]
    exact ⟨⟨h1, h8⟩, rfl⟩

/-- The padded buffer ends in a pad byte, as the pad length is not 0 (R104). -/
theorem statedPad_padded (src : List Byte) : statedPad (padded src) = padLength src.length := by
  obtain ⟨h1, -, -⟩ := padLength_bounds src.length
  obtain ⟨k, hk⟩ := Nat.exists_eq_add_of_le' h1
  have hlast : padded src = (src ++ List.replicate k (BitVec.ofNat 8 (padLength src.length))) ++
      [BitVec.ofNat 8 (padLength src.length)] := by
    rw [padded, List.append_assoc, ← List.replicate_succ', ← hk]
  rw [hlast, statedPad_concat, padByte_toNat]

/-- Depadding undoes padding (R104, R105). -/
theorem depadded_padded (src : List Byte) : depadded (padded src) = some src := by
  obtain ⟨h1, h8, -⟩ := padLength_bounds src.length
  rw [depadded_some, statedPad_padded, padded_length, Nat.add_sub_cancel, padded_take]
  exact ⟨⟨h1, h8⟩, rfl⟩

theorem padded_sourceOperand (s : State) : padded (sourceOperand s) =
    sourceOperand s ++ List.replicate (padLength s.srcLen.toNat) (BitVec.ofNat 8 (padLength s.srcLen.toNat)) := by
  rw [padded, sourceOperand_length]

theorem padded_sourceOperand_length (s : State) : (padded (sourceOperand s)).length = paddedLength s.srcLen.toNat := by
  rw [padded_length, sourceOperand_length, paddedLength]

/-! ## The blocks of a buffer command -/

/-- The eight bytes of output block j (R113). -/
theorem mapBlocks_bytes (g : Block → Block) {n j : Nat} (bs : List Byte) (hj : j < n) :
    ((mapBlocks g n bs).drop (8 * j)).take 8 = bytesOfBlock (g (blockOfBytes (bs.drop (8 * j)))) := by
  rw [← mapBlocks_block g n bs j hj, bytesOfBlock_blockOfBytes]
  rw [List.length_drop, mapBlocks_length]
  omega

/-- Block j of TDES.ENC's output as memory holds it afterwards (R109). -/
theorem readBytes_encrypted_block (s : State) {j : Nat} (hj : j < paddedLength s.srcLen.toNat / 8) :
    readBytes (bufferResult (encryptedOutput s) s) (s.dstAddr.toNat + 8 * j) 8 =
      bytesOfBlock (encryptWith (keyOperand s) (blockOfBytes ((padded (sourceOperand s)).drop (8 * j)))) := by
  have hfits : 8 * j + 8 ≤ (encryptedOutput s).length := by
    rw [encryptedOutput_length]
    omega
  rw [readBytes_block _ _ _ _ hfits, readBytes_bufferResult]
  exact mapBlocks_bytes _ _ hj

theorem decryptedBuffer_bytes (s : State) {j : Nat} (hj : j < s.srcLen.toNat / 8) :
    ((decryptedBuffer s).drop (8 * j)).take 8 =
      bytesOfBlock (decryptWith (keyOperand s) (blockOfBytes ((sourceOperand s).drop (8 * j)))) :=
  mapBlocks_bytes _ _ hj

/-- Block j of the decrypted buffer, from the source in memory (R110). -/
theorem decryptedBuffer_block (s : State) {j : Nat} (hj : j < s.srcLen.toNat / 8) :
    blockOfBytes ((decryptedBuffer s).drop (8 * j)) =
      decryptWith (keyOperand s) (blockOfBytes (readBytes s (s.srcAddr.toNat + 8 * j) 8)) := by
  rw [readBytes_block s _ s.srcLen.toNat j (by omega), blockOfBytes_take]
  exact mapBlocks_block _ _ _ _ hj

theorem encryptWith_keyOperand (s : State) (x : Block) : encryptWith (keyOperand s) x =
    tdesE x (keySchedule (blockOfBytes (readBytes s s.keyAddr.toNat 8)))
      (keySchedule (blockOfBytes (readBytes s (s.keyAddr.toNat + 8) 8)))
      (keySchedule (blockOfBytes (readBytes s (s.keyAddr.toNat + 16) 8))) := by
  rw [encryptWith, keyOperand_k1, keyOperand_k2, keyOperand_k3]

theorem decryptWith_keyOperand (s : State) (y : Block) : decryptWith (keyOperand s) y =
    tdesD y (keySchedule (blockOfBytes (readBytes s s.keyAddr.toNat 8)))
      (keySchedule (blockOfBytes (readBytes s (s.keyAddr.toNat + 8) 8)))
      (keySchedule (blockOfBytes (readBytes s (s.keyAddr.toNat + 16) 8))) := by
  rw [decryptWith, keyOperand_k1, keyOperand_k2, keyOperand_k3]

/-- All that a buffer command that succeeds changes (R57). -/
theorem bufferResult_eq {out : List Byte} {n : Nat} (hlen : out.length = n) (s : State) :
    bufferResult out s = { s with
      mem := (bufferResult out s).mem, dstLen := BitVec.ofNat 32 n
      key1 := blockOfBytes (readBytes s s.keyAddr.toNat 8)
      key2 := blockOfBytes (readBytes s (s.keyAddr.toNat + 8) 8)
      key3 := blockOfBytes (readBytes s (s.keyAddr.toNat + 16) 8)
      ks1 := keySchedule (blockOfBytes (readBytes s s.keyAddr.toNat 8))
      ks2 := keySchedule (blockOfBytes (readBytes s (s.keyAddr.toNat + 8) 8))
      ks3 := keySchedule (blockOfBytes (readBytes s (s.keyAddr.toNat + 16) 8))
      ksv := true, err := 0 } := by
  rw [← keyOperand_k1, ← keyOperand_k2, ← keyOperand_k3, ← hlen]
  rfl

/-! ## The address checks -/

theorem keyInRange_iff (s : State) : keyInRange s = true ↔ s.keyAddr.toNat + 24 ≤ s.cfg.memSize := by
  rw [keyInRange, inRange_iff]
  omega

/-- The padded length is never 0, so the destination range is not empty (R103, R109). -/
theorem encRangesOk_iff (s : State) : encRangesOk s = true ↔
    s.keyAddr.toNat + 24 ≤ s.cfg.memSize ∧
    (s.srcLen.toNat = 0 ∨ s.srcAddr.toNat + s.srcLen.toNat ≤ s.cfg.memSize) ∧
    s.dstAddr.toNat + paddedLength s.srcLen.toNat ≤ s.cfg.memSize := by
  obtain ⟨hpad, -, -⟩ := padLength_bounds s.srcLen.toNat
  simp only [encRangesOk, Bool.and_eq_true, keyInRange_iff, sourceInRange, destinationInRange, inRange_iff,
    paddedLength]
  omega

/-- Past the length check no range of TDES.DEC is empty (R110). -/
theorem decRangesOk_iff {s : State} (h0 : s.srcLen.toNat ≠ 0) : decRangesOk s = true ↔
    s.keyAddr.toNat + 24 ≤ s.cfg.memSize ∧ s.srcAddr.toNat + s.srcLen.toNat ≤ s.cfg.memSize ∧
    s.dstAddr.toNat + s.srcLen.toNat ≤ s.cfg.memSize := by
  simp only [decRangesOk, Bool.and_eq_true, keyInRange_iff, sourceInRange, destinationInRange, inRange_iff]
  omega

/-! ## The rules of the commands -/

/-- Every other word of an OP that has one command word is ILLEGAL_COMMAND (R54, R55). -/
theorem execute_of_ne_only_word {op : BitVec 4} {w c : Word} (honly : wordsOfOp op = [c]) (hop : opField w = op)
    (hne : w ≠ c) (s : State) : execute w s = .next (setErr .illegalCommand s) :=
  execute_of_notMem_wordsOfOp hop (by rwa [honly, List.mem_singleton]) s

/-- The keyed commands check KEY_LEN first (R101, R124). -/
theorem keyedCommand_badKeyLength {i : Instr} {s : State} (hi : i ∈ [.keyload, .tdesEnc, .tdesDec])
    (hk : s.keyLen ≠ 24) : exec i s = .next (setErr .invalidKeyLength s) := by
  simp only [List.mem_cons, List.not_mem_nil, or_false] at hi
  rcases hi with rfl | rfl | rfl
  · rw [exec, execKeyload, requireKeyLength_of_ne hk, raiseError]
  · rw [exec, execTdesEnc, requireKeyLength_of_ne hk, raiseError]
  · rw [exec, execTdesDec, requireKeyLength_of_ne hk, raiseError]

theorem execKeyload_addressFault {s : State} (hk : s.keyLen = 24) (hr : ¬ keyInRange s = true) :
    execKeyload s = .next (setErr .addressFault s) := by
  rw [execKeyload, requireKeyLength_of_eq hk, if_neg hr, raiseError]

theorem execTdesEblk_of_valid {s : State} (hv : s.ksv = true) :
    execTdesEblk s = .next (setErr .ok (setBlock (tdesE s.block s.ks1 s.ks2 s.ks3) s)) := by
  rw [execTdesEblk, requireKeys_of_valid hv, succeed]

theorem execTdesDblk_of_valid {s : State} (hv : s.ksv = true) :
    execTdesDblk s = .next (setErr .ok (setBlock (tdesD s.block s.ks1 s.ks2 s.ks3) s)) := by
  rw [execTdesDblk, requireKeys_of_valid hv, succeed]

/-- Settles O14: the two checks in order, and the triple key at KEY_ADDR loaded. -/
theorem keyloadFollowsItsRule : Obligations.KeyloadFollowsItsRule := by
  refine ⟨decode_word_keyload, fun s =>
    ⟨fun w hop hne => execute_of_ne_only_word (c := 0x00000001) (by decide) hop hne s,
      keyedCommand_badKeyLength (by simp), fun hk hout => ?_, fun hk hin => ?_⟩⟩
  · refine execKeyload_addressFault hk ?_
    rw [keyInRange_iff]
    omega
  · rw [← keyOperand_k1, ← keyOperand_k2, ← keyOperand_k3]
    exact execKeyload_eq hk ((keyInRange_iff s).mpr hin)

/-- Settles O17: BLOCK through `tdesE`, or NO_KEY_SCHEDULE. -/
theorem tdesEblkFollowsItsRule : Obligations.TdesEblkFollowsItsRule :=
  ⟨decode_word_tdesEblk, fun s =>
    ⟨fun w hop hne => execute_of_ne_only_word (c := 0x00000004) (by decide) hop hne s,
      execTdesEblk_of_invalid, execTdesEblk_of_valid⟩⟩

/-- Settles O18: BLOCK through `tdesD`, or NO_KEY_SCHEDULE. -/
theorem tdesDblkFollowsItsRule : Obligations.TdesDblkFollowsItsRule :=
  ⟨decode_word_tdesDblk, fun s =>
    ⟨fun w hop hne => execute_of_ne_only_word (c := 0x00000005) (by decide) hop hne s,
      execTdesDblk_of_invalid, execTdesDblk_of_valid⟩⟩

/-- Settles O19: the checks in order; the output in memory is the block loop's, block by block. -/
theorem tdesEncFollowsItsRule : Obligations.TdesEncFollowsItsRule := by
  refine ⟨decode_word_tdesEnc, fun s =>
    ⟨fun w hop hne => execute_of_ne_only_word (c := 0x00000006) (by decide) hop hne s,
      keyedCommand_badKeyLength (by simp), ?_⟩⟩
  rintro _ _ _ rfl rfl rfl _ _ _ rfl rfl rfl
  have hlen : (encryptedOutput s).length = s.srcLen.toNat + (8 - s.srcLen.toNat % 8) := encryptedOutput_length s
  refine ⟨fun hk hout => ?_, fun hk hkey hsrc hdst => ?_⟩
  · refine execTdesEnc_addressFault hk ?_
    rw [encRangesOk_iff, paddedLength, padLength]
    omega
  · have hr : encRangesOk s = true := (encRangesOk_iff s).mpr ⟨hkey, hsrc, hdst⟩
    refine ⟨_, execTdesEnc_eq hk hr, bufferResult_eq hlen s, fun a ha => ?_, fun j hj => ?_⟩
    · exact readByte_bufferResult_outside _ s a (by rwa [hlen])
    · obtain ⟨-, hblock⟩ := blockBytesAndBits
      rw [readBytes_encrypted_block s hj, hblock, encryptWith_keyOperand, padded_sourceOperand]
      rfl

/-- Settles O20: the checks in order, the last on the last byte of the decrypted buffer; the output is what depadding
leaves of it. -/
theorem tdesDecFollowsItsRule : Obligations.TdesDecFollowsItsRule := by
  refine ⟨decode_word_tdesDec, fun s =>
    ⟨fun w hop hne => execute_of_ne_only_word (c := 0x00000007) (by decide) hop hne s,
      keyedCommand_badKeyLength (by simp), ?_⟩⟩
  rintro n hn _ _ _ rfl rfl rfl D pad rfl hpad
  have hlen (h8 : n % 8 = 0) : (decryptedBuffer s).length = n := by
    rw [decryptedBuffer_length, ← hn]
    omega
  have hgood (h0 : n ≠ 0) (h8 : n % 8 = 0) : ¬ badCiphertextLength s := by
    rw [badCiphertextLength, ← hn]
    omega
  refine ⟨fun h8 => ⟨hlen h8, fun j hj => ?_⟩, fun hk hbad => ?_, fun hk h0 h8 hout => ?_,
    fun hk h0 h8 hkey hsrc hdst => ?_⟩
  · rw [decryptedBuffer_block s (hn ▸ hj), decryptWith_keyOperand]
  · exact execTdesDec_badLength hk (by rwa [badCiphertextLength, ← hn])
  · refine execTdesDec_addressFault hk (hgood h0 h8) ?_
    rw [decRangesOk_iff (hn ▸ h0), ← hn]
    omega
  · have hr : decRangesOk s = true := (decRangesOk_iff (hn ▸ h0)).mpr (hn ▸ ⟨hkey, hsrc, hdst⟩)
    have hstated : statedPad (decryptedBuffer s) = pad := by rw [statedPad, hlen h8, hpad]
    refine ⟨fun hout => ?_, fun h1 hle => ?_⟩
    · refine execTdesDec_badPadding hk (hgood h0 h8) hr ?_
      rw [depadded_none, hstated]
      omega
    · have hd : depadded (decryptedBuffer s) = some ((decryptedBuffer s).take (n - pad)) := by
        rw [depadded_some, hstated, hlen h8]
        exact ⟨⟨h1, hle⟩, rfl⟩
      have hout : ((decryptedBuffer s).take (n - pad)).length = n - pad := by
        rw [List.length_take, hlen h8]
        omega
      refine ⟨_, execTdesDec_eq hk (hgood h0 h8) hr hd, bufferResult_eq hout s, fun a ha => ?_, ?_⟩
      · exact readByte_bufferResult_outside _ s a (by rwa [hout])
      · rw [readBytes_bufferResult_take hout.ge, List.take_take, Nat.min_self]

/-! ## What holds across the buffer commands -/

/-- A TDES.ENC that succeeds has passed its checks and stored its output. -/
theorem execTdesEnc_success {s t : State} (h : execTdesEnc s = .next t) (herr : t.err = 0) :
    encRangesOk s = true ∧ t = bufferResult (encryptedOutput s) s := by
  have hfail (c : ErrCode) (hc : c ≠ .ok) : t ≠ setErr c s := by
    rintro rfl
    exact hc (errNumber_eq_zero.mp herr)
  rcases execTdesEnc_cases h with ⟨_, ht⟩ | ⟨_, _, ht⟩ | ⟨_, hr, ht⟩
  · exact absurd ht (hfail _ nofun)
  · exact absurd ht (hfail _ nofun)
  · exact ⟨hr, ht⟩

/-- With a legal MEM_SIZE the output's length fits in DST_LEN (R7, R109). -/
theorem encrypted_dstLen {s : State} (hcfg : s.cfg.legal = true) (hr : encRangesOk s = true) :
    (bufferResult (encryptedOutput s) s).dstLen.toNat = paddedLength s.srcLen.toNat := by
  obtain ⟨-, hmem⟩ : 1 ≤ s.cfg.memSize ∧ s.cfg.memSize ≤ 2 ^ 31 := of_decide_eq_true hcfg
  obtain ⟨-, -, hdst⟩ := (encRangesOk_iff s).mp hr
  have hlt : paddedLength s.srcLen.toNat < 2 ^ 32 := by omega
  calc (bufferResult (encryptedOutput s) s).dstLen.toNat
      = (encryptedOutput s).length % 2 ^ 32 := BitVec.toNat_ofNat _ _
    _ = paddedLength s.srcLen.toNat := by rw [encryptedOutput_length, Nat.mod_eq_of_lt hlt]

/-- Settles O58: DST_LEN is the padded length. -/
theorem encryptedLengthIsPadded : Obligations.EncryptedLengthIsPadded := by
  intro s t hcfg h herr
  obtain ⟨hr, rfl⟩ := execTdesEnc_success h herr
  obtain ⟨h1, h8, hmod⟩ := padLength_bounds s.srcLen.toNat
  rw [encrypted_dstLen hcfg hr, paddedLength]
  omega

theorem blockOfBytes_congr {bs bs' : List Byte} (h : bs.take 8 = bs'.take 8) : blockOfBytes bs = blockOfBytes bs' := by
  rw [← blockOfBytes_take bs, h, blockOfBytes_take]

/-- Settles O59: each output block is one function of the key bytes and of its input block. -/
theorem blocksAreIndependent : Obligations.BlocksAreIndependent := by
  intro s s' j j' hbytes
  have hkey : keyOperand s = keyOperand s' := congrArg tripleKeyOfBytes hbytes
  refine ⟨fun t t' h herr h' herr' hj hj' hblock => ?_, fun hj hj' hblock => ?_⟩
  · obtain ⟨-, rfl⟩ := execTdesEnc_success h herr
    obtain ⟨-, rfl⟩ := execTdesEnc_success h' herr'
    rw [padded_sourceOperand_length] at hj hj'
    rw [readBytes_encrypted_block s hj, readBytes_encrypted_block s' hj', hkey, blockOfBytes_congr hblock]
  · rw [decryptedBuffer_bytes s hj, decryptedBuffer_bytes s' hj', hkey, blockOfBytes_congr hblock]

/-- Decrypting TDES.ENC's output under its key gives the padded source back (R99, R111). -/
theorem decryptedBuffer_of_encrypted {s u : State} (hkey : keyOperand u = keyOperand s)
    (hlen : u.srcLen.toNat = paddedLength s.srcLen.toNat) (hsrc : sourceOperand u = encryptedOutput s) :
    decryptedBuffer u = padded (sourceOperand s) := by
  obtain ⟨-, -, hmod⟩ := padLength_bounds s.srcLen.toNat
  have hpadded := padded_sourceOperand_length s
  have hwhole : 8 * (paddedLength s.srcLen.toNat / 8) = (padded (sourceOperand s)).length := by
    rw [hpadded, paddedLength]
    omega
  rw [decryptedBuffer, hkey, hlen, hsrc, encryptedOutput,
    mapBlocks_inverse (decryptWith_encryptWith _) _ _ hwhole.le, hwhole, List.take_length]

/-- Settles O60: the source of the second command is the first one's output, which decrypts to the padded plaintext, and
depadding leaves the plaintext. -/
theorem decryptionReturnsThePlaintext : Obligations.DecryptionReturnsThePlaintext := by
  intro s t u hcfg h herr hk hbytes hlen hsrc hrkey hrsrc hrdst
  obtain ⟨hr, rfl⟩ := execTdesEnc_success h herr
  have hdst := encrypted_dstLen hcfg hr
  have hlen' : u.srcLen.toNat = paddedLength s.srcLen.toNat := by rw [hlen, hdst]
  have hoperand : sourceOperand u = encryptedOutput s := by
    rw [sourceOperand, hsrc, hdst, ← encryptedOutput_length, readBytes_bufferResult]
  have hdecrypted := decryptedBuffer_of_encrypted (congrArg tripleKeyOfBytes hbytes) hlen' hoperand
  have hgood : ¬ badCiphertextLength u := by
    obtain ⟨h1, -, hmod⟩ := padLength_bounds s.srcLen.toNat
    rw [badCiphertextLength, hlen', paddedLength]
    omega
  have hranges : decRangesOk u = true := by
    rw [decRangesOk, keyInRange, sourceInRange, destinationInRange, hrkey, hrsrc, hrdst]
    rfl
  have hd : depadded (decryptedBuffer u) = some (sourceOperand s) := by rw [hdecrypted, depadded_padded]
  refine ⟨_, execTdesDec_eq hk hgood hranges hd, rfl, ?_, ?_⟩
  · calc (bufferResult (sourceOperand s) u).dstLen
        = BitVec.ofNat 32 (sourceOperand s).length := rfl
      _ = s.srcLen := by rw [sourceOperand_length, BitVec.ofNat_toNat, BitVec.setWidth_eq]
  · calc readBytes (bufferResult (sourceOperand s) u) u.dstAddr.toNat s.srcLen.toNat
        = (sourceOperand s).take s.srcLen.toNat := readBytes_bufferResult_take (sourceOperand_length s).ge u
      _ = sourceOperand s := List.take_of_length_le (sourceOperand_length s).le

end Sys2Proof.Machine
end

section
/-!
SUPPORT. The host interface (45_host_interface): the commands answer in every state, a step answers exactly for the
transactions of the interface, and what each command leaves as it was.
-/

namespace Sys2Proof.Machine

/-! ## Commands answer -/

/-- Every command ends in one of the four effects. -/
theorem exec_eq_effect (i : Instr) (s : State) : ∃ e : Effect, exec i s = .next (e.apply s) := by
  obtain ⟨e, he, -⟩ := sameEffect_exec (OperandsAgree.refl s) i
  exact ⟨e, he⟩

theorem execute_of_decode {w : Word} {i : Instr} (h : decode w = .ok i) (s : State) : execute w s = exec i s := by
  rw [execute, h]

/-- Every command word answers, ILLEGAL or not. -/
theorem execute_answers (w : Word) (s : State) : ∃ t, execute w s = .next t := by
  obtain ⟨e, he, -⟩ := sameEffect_execute (OperandsAgree.refl s) w
  exact ⟨_, he⟩

/-- SLOT = 3 names no schedule, so the command is ILLEGAL_COMMAND (R54). -/
theorem desCommand_slot_three (dir : Direction) (s : State) :
    desCommand dir 3 s = .next (setErr .illegalCommand s) := rfl

/-- Settles O6: every command has an effect, which is a next state; SLOT = 3 fails before any other check. -/
theorem everyCommandCompletes : Obligations.EveryCommandCompletes := by
  refine ⟨fun i s => ?_, execute_answers, fun s =>
    ⟨desCommand_slot_three .encrypt s, desCommand_slot_three .decrypt s⟩⟩
  obtain ⟨e, he⟩ := exec_eq_effect i s
  exact ⟨_, he⟩

/-- Settles O5: the step is the transaction, a CMD write is `execute`, and `execute` follows the decoder. -/
theorem stepRunsTheCommandWord : Obligations.StepRunsTheCommandWord := by
  intro s w rest hp
  have hstep : step s = execute w { s with program := rest, epoch := s.epoch + 1 } :=
    (step_of_cons hp).trans (transact_command w _)
  refine ⟨hstep, fun i hd => ?_, fun r hd => ?_⟩
  · rw [hstep, execute_of_decode hd]
  · rw [hstep, execute_of_illegal hd, setErr, errNumber]

/-! ## Transactions answer exactly inside the interface -/

theorem writeRegister_answers (r : Reg) (w : Word) (s : State) : ∃ t, writeRegister r w s = .next t := by
  by_cases hr : r = .cmd
  · subst hr; exact execute_answers w s
  · exact ⟨_, writeRegister_of_ne_cmd hr w s⟩

theorem transact_regWrite_answers {off : Nat} (ha : accessibleOffset off = true) (w : Word) (s : State) :
    ∃ t, transact (.regWrite off w) s = .next t := by
  cases hr : registerAt off with
  | none => exact ⟨_, transact_regWrite_unmapped ha hr w s⟩
  | some r =>
    rw [transact_regWrite_mapped r ha hr]
    exact writeRegister_answers r w _

/-- Inside the interface every transaction completes (R114). -/
theorem transact_answers_of_legal {x : HostTxn} {s : State} (h : x.legal s.cfg.memSize = true) :
    ∃ t, transact x s = .next t := by
  cases x with
  | regWrite off w => exact transact_regWrite_answers h w s
  | regRead off => exact ⟨_, transact_regRead h s⟩
  | regOtherWidth off => cases h
  | memWrite a b => exact ⟨_, transact_memWrite (of_decide_eq_true h)⟩
  | memRead a => exact ⟨_, transact_memRead (of_decide_eq_true h)⟩
  | reset => exact ⟨_, rfl⟩

/-- Outside the interface a transaction is refused or faults (R119, R120). -/
theorem legal_of_transact_answers {x : HostTxn} {s t : State} (h : transact x s = .next t) :
    x.legal s.cfg.memSize = true := by
  by_contra hl
  cases x with
  | regWrite off w => rw [transact_regWrite_outside (eq_false_of_ne_true hl)] at h; cases h
  | regRead off => rw [transact_regRead_outside (eq_false_of_ne_true hl)] at h; cases h
  | regOtherWidth off => cases h
  | memWrite a b =>
    rw [transact_memWrite_outside (not_lt.mp fun ha => hl (decide_eq_true ha))] at h
    cases h
  | memRead a =>
    rw [transact_memRead_outside (not_lt.mp fun ha => hl (decide_eq_true ha))] at h
    cases h
  | reset => exact hl rfl

theorem transact_answers_iff_legal {x : HostTxn} {s : State} :
    (∃ t, transact x s = .next t) ↔ x.legal s.cfg.memSize = true :=
  ⟨fun ⟨_, h⟩ => legal_of_transact_answers h, transact_answers_of_legal⟩

/-- Settles O7: an ended program answers, and otherwise the step is the next transaction. -/
theorem stepAnswersExactlyOnTheInterface : Obligations.StepAnswersExactlyOnTheInterface := by
  intro s
  cases hp : s.program with
  | nil => exact iff_of_true ⟨s, step_of_nil hp⟩ nofun
  | cons x rest =>
    rw [step_of_cons hp, transact_answers_iff_legal]
    simp

/-! ## Runs of a host program inside the interface -/

theorem run_succ_of_step {M : Host.Core} {s t : M.State} (h : M.step s = .next t) (k : Nat) :
    M.run (k + 1) s = M.run k t := by
  simp only [Host.Core.run, h]

/-- The host's program holds only transactions of the interface. -/
def LegalProgram (s : State) : Prop := ∀ x ∈ s.program, x.legal s.cfg.memSize = true

/-- From a program inside the interface a step answers, and what is left of the program is inside it too. -/
theorem step_legalProgram {s : State} (h : LegalProgram s) : ∃ t, step s = .next t ∧ LegalProgram t := by
  have hhead : ∀ x ∈ s.program.head?, x.legal s.cfg.memSize = true := fun x hx => h x (List.mem_of_mem_head? hx)
  obtain ⟨t, ht⟩ := (stepAnswersExactlyOnTheInterface s).mpr hhead
  obtain ⟨hprogram, hcfg⟩ := stepTakesOneTransaction.1 s t ht
  refine ⟨t, ht, fun x hx => ?_⟩
  rw [hprogram] at hx
  rw [hcfg]
  exact h x (List.mem_of_mem_tail hx)

/-- Settles O8: by induction on the number of steps, as each step answers and keeps the program inside the interface. -/
theorem legalProgramsNeverStop : Obligations.LegalProgramsNeverStop := by
  intro k
  induction k with
  | zero => exact fun s _ => ⟨s, rfl⟩
  | succ k ih =>
    intro s hs
    obtain ⟨t, hstep, ht⟩ := step_legalProgram hs
    rw [run_succ_of_step (M := Sys2Proof.core) hstep]
    exact ih t ht

/-! ## The frames of the commands -/

section
variable {s t : State}

/-- A command that fails changes ERR alone: of the effects only `fail` reports an error (R131). -/
theorem exec_failure_frame {i : Instr} (h : exec i s = .next t) (herr : t.err ≠ 0) : t = { s with err := t.err } := by
  obtain ⟨e, he⟩ := exec_eq_effect i s
  obtain rfl : t = e.apply s := Host.Outcome.next.inj (h.symm.trans he)
  cases e with
  | fail c => rfl
  | block x => exact absurd rfl herr
  | load k => exact absurd rfl herr
  | output k out => exact absurd rfl herr

theorem execKeyload_frame (h : execKeyload s = .next t) : t = { s with
    key1 := t.key1, key2 := t.key2, key3 := t.key3, ks1 := t.ks1, ks2 := t.ks2, ks3 := t.ks3
    ksv := t.ksv, err := t.err } := by
  rcases execKeyload_cases h with ⟨_, rfl⟩ | ⟨_, _, rfl⟩ | ⟨_, _, rfl⟩ <;> rfl

theorem desCommand_frame {dir : Direction} {slot : BitVec 2} (h : desCommand dir slot s = .next t) :
    t = { s with block := t.block, err := t.err } := by
  rcases desCommand_cases h with ⟨_, rfl⟩ | ⟨_, _, rfl⟩ | ⟨_, _, _, rfl⟩ <;> rfl

theorem execTdesEblk_frame (h : execTdesEblk s = .next t) : t = { s with block := t.block, err := t.err } := by
  rcases execTdesEblk_cases h with ⟨_, rfl⟩ | ⟨_, rfl⟩ <;> rfl

theorem execTdesDblk_frame (h : execTdesDblk s = .next t) : t = { s with block := t.block, err := t.err } := by
  rcases execTdesDblk_cases h with ⟨_, rfl⟩ | ⟨_, rfl⟩ <;> rfl

/-- A buffer command fails, or stores an output that fits in the memory from DST_ADDR on (R109, R110). -/
theorem bufferCommand_cases (h : exec .tdesEnc s = .next t ∨ exec .tdesDec s = .next t) :
    (∃ c, c ≠ .ok ∧ t = setErr c s) ∨
    (∃ out, s.dstAddr.toNat + out.length ≤ s.cfg.memSize ∧ t = bufferResult out s) := by
  rcases h with h | h
  · rcases execTdesEnc_cases h with ⟨_, ht⟩ | ⟨_, _, ht⟩ | ⟨_, hr, ht⟩
    · exact .inl ⟨.invalidKeyLength, nofun, ht⟩
    · exact .inl ⟨.addressFault, nofun, ht⟩
    · exact .inr ⟨_, encryptedOutput_fits hr, ht⟩
  · rcases execTdesDec_cases h with
      ⟨_, ht⟩ | ⟨_, _, ht⟩ | ⟨_, _, _, ht⟩ | ⟨_, _, _, _, ht⟩ | ⟨out, _, hb, hr, hd, ht⟩
    · exact .inl ⟨.invalidKeyLength, nofun, ht⟩
    · exact .inl ⟨.invalidCiphertextLength, nofun, ht⟩
    · exact .inl ⟨.addressFault, nofun, ht⟩
    · exact .inl ⟨.invalidPadding, nofun, ht⟩
    · exact .inr ⟨out, depadded_fits hb hr hd, ht⟩

theorem bufferCommand_frame (h : exec .tdesEnc s = .next t ∨ exec .tdesDec s = .next t) : t = { s with
    mem := t.mem, dstLen := t.dstLen
    key1 := t.key1, key2 := t.key2, key3 := t.key3, ks1 := t.ks1, ks2 := t.ks2, ks3 := t.ks3
    ksv := t.ksv, err := t.err } := by
  rcases bufferCommand_cases h with ⟨_, _, rfl⟩ | ⟨_, _, rfl⟩ <;> rfl

/-- With a legal MEM_SIZE an output that fits has a length that fits in DST_LEN (R7). -/
theorem bufferResult_dstLen {out : List Byte} (hcfg : s.cfg.legal = true)
    (hout : s.dstAddr.toNat + out.length ≤ s.cfg.memSize) : (bufferResult out s).dstLen.toNat = out.length := by
  obtain ⟨-, hmem⟩ : 1 ≤ s.cfg.memSize ∧ s.cfg.memSize ≤ 2 ^ 31 := of_decide_eq_true hcfg
  calc (bufferResult out s).dstLen.toNat
      = out.length % 2 ^ 32 := BitVec.toNat_ofNat _ _
    _ = out.length := Nat.mod_eq_of_lt (by omega)

/-- A buffer command that succeeds leaves every byte outside the range it writes (R118). -/
theorem bufferCommand_readByte_outside (h : exec .tdesEnc s = .next t ∨ exec .tdesDec s = .next t)
    (hcfg : s.cfg.legal = true) (herr : t.err = 0) {a : Nat}
    (ha : a < s.dstAddr.toNat ∨ s.dstAddr.toNat + t.dstLen.toNat ≤ a) : readByte t a = readByte s a := by
  rcases bufferCommand_cases h with ⟨c, hc, rfl⟩ | ⟨out, hout, rfl⟩
  · exact absurd (errNumber_eq_zero.mp herr) hc
  · rw [bufferResult_dstLen hcfg hout] at ha
    exact readByte_bufferResult_outside out s a ha

end

/-- Settles O23: the frame of each command; of the buffer commands also that of the memory bytes. -/
theorem commandsWriteOnlyTheirOwnState : Obligations.CommandsWriteOnlyTheirOwnState := by
  refine ⟨fun _ _ _ => exec_failure_frame, fun _ _ => execKeyload_frame, fun slot s t h => ?_, fun s t h =>
    ⟨bufferCommand_frame h, fun hcfg herr _ => bufferCommand_readByte_outside h hcfg herr⟩⟩
  rcases h with h | h | h | h
  · exact desCommand_frame h
  · exact desCommand_frame h
  · exact execTdesEblk_frame h
  · exact execTdesDblk_frame h

end Sys2Proof.Machine
end

section
/-!
SUPPORT. Errors (60_exceptions): the ERR that each command leaves, as the checks of R130 read in order, and the frame of a
command that reports an error (R131).
-/

namespace Sys2Proof.Machine

section
variable {s t : State}

/-! ## The ERR each command leaves -/

theorem execKeyload_err (h : execKeyload s = .next t) :
    t.err = if s.keyLen ≠ 24 then 1 else if keyInRange s = false then 6 else 0 := by
  rcases execKeyload_cases h with ⟨hk, rfl⟩ | ⟨hk, hr, rfl⟩ | ⟨hk, hr, rfl⟩
  · rw [if_pos hk]; rfl
  · rw [if_neg (not_not.mpr hk), if_pos hr]; rfl
  · rw [if_neg (not_not.mpr hk), if_neg (by simp [hr])]; rfl

/-- With KSV = 1 a block command that names a schedule replaces BLOCK and reports OK (R95, R96, R107, R108). -/
theorem blockCommand_of_valid {i : Instr}
    (hi : i ∈ [.desEnc 0, .desEnc 1, .desEnc 2, .desDec 0, .desDec 1, .desDec 2, .tdesEblk, .tdesDblk])
    (hv : s.ksv = true) : ∃ x, exec i s = .next (setErr .ok (setBlock x s)) := by
  simp only [List.mem_cons, List.not_mem_nil, or_false] at hi
  rcases hi with rfl | rfl | rfl | rfl | rfl | rfl | rfl | rfl
  · exact ⟨_, desCommand_of_valid .encrypt (slot := 0) rfl hv⟩
  · exact ⟨_, desCommand_of_valid .encrypt (slot := 1) rfl hv⟩
  · exact ⟨_, desCommand_of_valid .encrypt (slot := 2) rfl hv⟩
  · exact ⟨_, desCommand_of_valid .decrypt (slot := 0) rfl hv⟩
  · exact ⟨_, desCommand_of_valid .decrypt (slot := 1) rfl hv⟩
  · exact ⟨_, desCommand_of_valid .decrypt (slot := 2) rfl hv⟩
  · exact ⟨_, execTdesEblk_of_valid hv⟩
  · exact ⟨_, execTdesDblk_of_valid hv⟩

theorem blockCommand_err {i : Instr}
    (hi : i ∈ [.desEnc 0, .desEnc 1, .desEnc 2, .desDec 0, .desDec 1, .desDec 2, .tdesEblk, .tdesDblk]) (s : State) :
    ∃ t, exec i s = .next t ∧ t.err = if s.ksv = false then 5 else 0 := by
  cases hv : s.ksv with
  | false => exact ⟨_, blockCommand_of_invalid hi hv, rfl⟩
  | true =>
    obtain ⟨x, hx⟩ := blockCommand_of_valid hi hv
    exact ⟨_, hx, rfl⟩

theorem encRangesOk_eq_false : encRangesOk s = false ↔ keyInRange s = false ∨ sourceInRange s = false ∨
    destinationInRange s (paddedLength s.srcLen.toNat) = false := by
  rw [encRangesOk, Bool.and_eq_false_iff, Bool.and_eq_false_iff, or_assoc]

theorem decRangesOk_eq_false : decRangesOk s = false ↔ keyInRange s = false ∨ sourceInRange s = false ∨
    destinationInRange s s.srcLen.toNat = false := by
  rw [decRangesOk, Bool.and_eq_false_iff, Bool.and_eq_false_iff, or_assoc]

theorem execTdesEnc_err (h : execTdesEnc s = .next t) : t.err =
    if s.keyLen ≠ 24 then 1
    else if keyInRange s = false ∨ sourceInRange s = false ∨
      destinationInRange s (paddedLength s.srcLen.toNat) = false then 6
    else 0 := by
  simp only [← encRangesOk_eq_false]
  rcases execTdesEnc_cases h with ⟨hk, rfl⟩ | ⟨hk, hr, rfl⟩ | ⟨hk, hr, rfl⟩
  · rw [if_pos hk]; rfl
  · rw [if_neg (not_not.mpr hk), if_pos hr]; rfl
  · rw [if_neg (not_not.mpr hk), if_neg (by simp [hr])]; rfl

/-- Past the length check the decrypted buffer is as long as the source, so the pad length stands at SRC_LEN - 1. -/
theorem statedPad_decryptedBuffer (hb : ¬ badCiphertextLength s) :
    statedPad (decryptedBuffer s) = ((decryptedBuffer s).getD (s.srcLen.toNat - 1) 0).toNat := by
  have hlen : (decryptedBuffer s).length = s.srcLen.toNat := by
    rw [badCiphertextLength] at hb
    rw [decryptedBuffer_length]
    omega
  rw [statedPad, hlen]

/-- Depadding fails on a pad length outside 1..8, read as two bounds (R105). -/
theorem depadded_eq_none_iff_outside {out : List Byte} : depadded out = none ↔ statedPad out < 1 ∨ 8 < statedPad out := by
  rw [depadded_none]
  omega

theorem execTdesDec_err (h : execTdesDec s = .next t) : t.err =
    if s.keyLen ≠ 24 then 1
    else if s.srcLen.toNat = 0 ∨ s.srcLen.toNat % 8 ≠ 0 then 2
    else if keyInRange s = false ∨ sourceInRange s = false ∨ destinationInRange s s.srcLen.toNat = false then 6
    else if ((decryptedBuffer s).getD (s.srcLen.toNat - 1) 0).toNat < 1 ∨
      8 < ((decryptedBuffer s).getD (s.srcLen.toNat - 1) 0).toNat then 3
    else 0 := by
  simp only [← decRangesOk_eq_false]
  have hcases := execTdesDec_cases h
  simp only [badCiphertextLength] at hcases
  rcases hcases with
    ⟨hk, rfl⟩ | ⟨hk, hb, rfl⟩ | ⟨hk, hb, hr, rfl⟩ | ⟨hk, hb, hr, hd, rfl⟩ | ⟨out, hk, hb, hr, hd, rfl⟩
  · rw [if_pos hk]; rfl
  · rw [if_neg (not_not.mpr hk), if_pos hb]; rfl
  · rw [if_neg (not_not.mpr hk), if_neg hb, if_pos hr]; rfl
  · rw [depadded_eq_none_iff_outside, statedPad_decryptedBuffer hb] at hd
    rw [if_neg (not_not.mpr hk), if_neg hb, if_neg (by simp [hr]), if_pos hd]; rfl
  · have hpad : depadded (decryptedBuffer s) ≠ none := by simp [hd]
    rw [ne_eq, depadded_eq_none_iff_outside, statedPad_decryptedBuffer hb] at hpad
    rw [if_neg (not_not.mpr hk), if_neg hb, if_neg (by simp [hr]), if_neg hpad]; rfl

end

/-- Settles O21: every command completes, and the ERR it leaves is its chain of checks. -/
theorem firstApplicableErrorIsReported : Obligations.FirstApplicableErrorIsReported := by
  obtain ⟨hanswers, -, -⟩ := everyCommandCompletes
  exact fun s => ⟨fun _ _ hd => ⟨_, execute_of_illegal hd s, rfl⟩,
    (hanswers .keyload s).imp fun _ h => ⟨h, execKeyload_err h⟩,
    fun _ hi => blockCommand_err hi s,
    (hanswers .tdesEnc s).imp fun _ h => ⟨h, execTdesEnc_err h⟩,
    (hanswers .tdesDec s).imp fun _ h => ⟨h, execTdesDec_err h⟩⟩

/-! ## A command that reports an error -/

/-- An ILLEGAL word writes ERR alone, and any other word is its command (R54, R131). -/
theorem execute_failure_frame {w : Word} {s t : State} (h : execute w s = .next t) (herr : t.err ≠ 0) :
    t = { s with err := t.err } := by
  cases hd : decode w with
  | ok i =>
    rw [execute_of_decode hd] at h
    exact exec_failure_frame h herr
  | error r =>
    obtain rfl : t = setErr .illegalCommand s := Host.Outcome.next.inj (h.symm.trans (execute_of_illegal hd s))
    rfl

/-- Settles O22: the frame of a failing command, for commands and for command words. -/
theorem failedCommandsOnlySetErr : Obligations.FailedCommandsOnlySetErr :=
  ⟨fun _ _ _ => exec_failure_frame, fun _ _ _ => execute_failure_frame⟩

end Sys2Proof.Machine
end
